-- ==== Sys2Proof/Word.lean ====
section
/-! DEFINITION. The bit vectors of the block: registers, addresses, opcodes and their nibbles (spec/00_scope.md R8, R14). -/

namespace Sys2Proof

/-- One byte of memory or one general register (R21, R45). -/
abbrev Byte := BitVec 8

/-- The 16-bit opcode, and the width of I (R8, R31, R65). -/
abbrev Word := BitVec 16

/-- The 12-bit Address, "integer in [0, 0xFFF]" (R25). -/
abbrev Addr := BitVec 12

/-- A register number x or y: a 4-bit index, so every index names a register (R21, R66). -/
abbrev Reg := BitVec 4

end Sys2Proof
end

