-- ==== Sys2Proof/Syntax.lean ====
section
/-! DEFINITION. The instructions: one constructor per row of spec/opcode_table.json, with the operand fields of R66 that
its row names. The names are the spec's own (R19); `ret` stands for Return, which is a word of Lean. -/

namespace Sys2Proof

inductive Instr where
  /-- 0x00E0 ClearScreen (R141). -/
  | clearScreen
  /-- 0x00EE Return (R105). -/
  | ret
  /-- 0x1NNN Jump (R107). -/
  | jump (nnn : Addr)
  /-- 0x2NNN Call (R108). -/
  | call (nnn : Addr)
  /-- 0x3XNN SkipIfEqual (R111). -/
  | skipIfEqual (x : Reg) (nn : Byte)
  /-- 0x4XNN SkipIfNotEqual (R112). -/
  | skipIfNotEqual (x : Reg) (nn : Byte)
  /-- 0x5XY0 SkipIfEqualXY (R113). -/
  | skipIfEqualXY (x y : Reg)
  /-- 0x6XNN SetVX (R122). -/
  | setVX (x : Reg) (nn : Byte)
  /-- 0x7XNN AddVX (R123). -/
  | addVX (x : Reg) (nn : Byte)
  /-- 0x8XY0 SetVXToVY (R124). -/
  | setVXToVY (x y : Reg)
  /-- 0x8XY1 OrVXVY (R125). -/
  | orVXVY (x y : Reg)
  /-- 0x8XY2 AndVXVY (R126). -/
  | andVXVY (x y : Reg)
  /-- 0x8XY3 XorVXVY (R127). -/
  | xorVXVY (x y : Reg)
  /-- 0x8XY4 AddVYToVX (R128). -/
  | addVYToVX (x y : Reg)
  /-- 0x8XY5 SubVYFromVX (R129). -/
  | subVYFromVX (x y : Reg)
  /-- 0x8XY6 ShiftRight (R131). -/
  | shiftRight (x y : Reg)
  /-- 0x8XY7 SubVXFromVY (R130). -/
  | subVXFromVY (x y : Reg)
  /-- 0x8XYE ShiftLeft (R132). -/
  | shiftLeft (x y : Reg)
  /-- 0x9XY0 SkipIfNotEqualXY (R114). -/
  | skipIfNotEqualXY (x y : Reg)
  /-- 0xANNN SetIRegister (R140). -/
  | setIRegister (nnn : Addr)
  /-- 0xDXYN Draw (R142): `n` sprite rows, 0..15. -/
  | draw (x y : Reg) (n : BitVec 4)
deriving DecidableEq, Repr

end Sys2Proof
end

