-- ==== Sys2Proof/Decode.lean ====
section
/-! DEFINITION. Decoding (spec/30_encoding.md R65 to R79) and the encoder written from the same table (R81).
Decoding depends on the word alone (R68, R78) and always takes exactly two bytes, the high byte first (R65, R79). -/

namespace Sys2Proof

/-- Why a decoder gives no instruction. Every `illegal…` is the spec's DecodeError (R77); the name says which rule. -/
inductive DecodeReject where
  /-- Fewer than the two bytes of a word. The block never meets it: a fetch always reads two bytes (R90). -/
  | truncated
  /-- A 0x0NNN other than 0x00E0 and 0x00EE (R69). -/
  | illegalFamily0
  /-- 0x5XYn or 0x9XYn with n ≠ 0 (R72). -/
  | illegalLowNibble
  /-- 0x8XYn with n ∉ 0..7, 0xE (R73). -/
  | illegalFunction
  /-- Families 0xB, 0xC, 0xE and 0xF (R75). -/
  | illegalFamily
deriving DecidableEq, Repr

/-- w[15:12]: "the top nibble selects an opcode family" (R66). -/
def family (w : Word) : BitVec 4 := w.extractLsb' 12 4

/-- w[11:8] (R66). -/
def fieldX (w : Word) : Reg := w.extractLsb' 8 4

/-- w[7:4] (R66). -/
def fieldY (w : Word) : Reg := w.extractLsb' 4 4

/-- w[3:0] (R66). -/
def fieldN (w : Word) : BitVec 4 := w.extractLsb' 0 4

/-- w[7:0] (R66). -/
def fieldNN (w : Word) : Byte := w.extractLsb' 0 8

/-- w[11:0] (R66). -/
def fieldNNN (w : Word) : Addr := w.extractLsb' 0 12

/-- Family 0x0 compares all 16 bits (R69). -/
def decodeFamily0 (w : Word) : Except DecodeReject Instr :=
  if w = 0x00E0 then .ok .clearScreen else if w = 0x00EE then .ok .ret else .error .illegalFamily0

/-- Families 0x5 and 0x9 decode only when n = 0 (R72). -/
def decodeLowNibbleZero (w : Word) (i : Instr) : Except DecodeReject Instr :=
  if fieldN w = 0 then .ok i else .error .illegalLowNibble

/-- Family 0x8 selects by n (R73). -/
def decodeFamily8 (w : Word) : Except DecodeReject Instr :=
  match fieldN w with
  | 0x0 => .ok (.setVXToVY (fieldX w) (fieldY w))
  | 0x1 => .ok (.orVXVY (fieldX w) (fieldY w))
  | 0x2 => .ok (.andVXVY (fieldX w) (fieldY w))
  | 0x3 => .ok (.xorVXVY (fieldX w) (fieldY w))
  | 0x4 => .ok (.addVYToVX (fieldX w) (fieldY w))
  | 0x5 => .ok (.subVYFromVX (fieldX w) (fieldY w))
  | 0x6 => .ok (.shiftRight (fieldX w) (fieldY w))
  | 0x7 => .ok (.subVXFromVY (fieldX w) (fieldY w))
  | 0xE => .ok (.shiftLeft (fieldX w) (fieldY w))
  | _ => .error .illegalFunction

/-- decode : "a pure, total function from the 16-bit word to either an Instruction or DecodeError" (R68 to R77). -/
def decodeWord (w : Word) : Except DecodeReject Instr :=
  match family w with
  | 0x0 => decodeFamily0 w
  | 0x1 => .ok (.jump (fieldNNN w))
  | 0x2 => .ok (.call (fieldNNN w))
  | 0x3 => .ok (.skipIfEqual (fieldX w) (fieldNN w))
  | 0x4 => .ok (.skipIfNotEqual (fieldX w) (fieldNN w))
  | 0x5 => decodeLowNibbleZero w (.skipIfEqualXY (fieldX w) (fieldY w))
  | 0x6 => .ok (.setVX (fieldX w) (fieldNN w))
  | 0x7 => .ok (.addVX (fieldX w) (fieldNN w))
  | 0x8 => decodeFamily8 w
  | 0x9 => decodeLowNibbleZero w (.skipIfNotEqualXY (fieldX w) (fieldY w))
  | 0xA => .ok (.setIRegister (fieldNNN w))
  | 0xD => .ok (.draw (fieldX w) (fieldY w) (fieldN w))
  | _ => .error .illegalFamily

/-- Big-endian: the byte at the lower address is w[15:8] (R48, R65). -/
def wordOfBytes (hi lo : Byte) : Word := hi ++ lo

/-- Decoding a byte sequence: the instruction at its head and the bytes after it (R65, R79). -/
def decodeBytes : List Byte → Except DecodeReject (Instr × List Byte)
  | hi :: lo :: rest =>
    match decodeWord (wordOfBytes hi lo) with
    | .ok i => .ok (i, rest)
    | .error e => .error e
  | _ => .error .truncated

/-- The word of an instruction (R81). -/
def encode : Instr → Word
  | .clearScreen => 0x00E0
  | .ret => 0x00EE
  | .jump nnn => 0x1#4 ++ nnn
  | .call nnn => 0x2#4 ++ nnn
  | .skipIfEqual x nn => 0x3#4 ++ x ++ nn
  | .skipIfNotEqual x nn => 0x4#4 ++ x ++ nn
  | .skipIfEqualXY x y => 0x5#4 ++ x ++ y ++ 0x0#4
  | .setVX x nn => 0x6#4 ++ x ++ nn
  | .addVX x nn => 0x7#4 ++ x ++ nn
  | .setVXToVY x y => 0x8#4 ++ x ++ y ++ 0x0#4
  | .orVXVY x y => 0x8#4 ++ x ++ y ++ 0x1#4
  | .andVXVY x y => 0x8#4 ++ x ++ y ++ 0x2#4
  | .xorVXVY x y => 0x8#4 ++ x ++ y ++ 0x3#4
  | .addVYToVX x y => 0x8#4 ++ x ++ y ++ 0x4#4
  | .subVYFromVX x y => 0x8#4 ++ x ++ y ++ 0x5#4
  | .shiftRight x y => 0x8#4 ++ x ++ y ++ 0x6#4
  | .subVXFromVY x y => 0x8#4 ++ x ++ y ++ 0x7#4
  | .shiftLeft x y => 0x8#4 ++ x ++ y ++ 0xE#4
  | .skipIfNotEqualXY x y => 0x9#4 ++ x ++ y ++ 0x0#4
  | .setIRegister nnn => 0xA#4 ++ nnn
  | .draw x y n => 0xD#4 ++ x ++ y ++ n

/-- w[15:8], the byte stored at the lower address (R48). -/
def highByte (w : Word) : Byte := w.extractLsb' 8 8

/-- w[7:0], the byte stored at the higher address (R48). -/
def lowByte (w : Word) : Byte := w.extractLsb' 0 8

/-- The bytes of an instruction as memory holds them, high byte first (R65). -/
def encodeBytes (i : Instr) : List Byte := [highByte (encode i), lowByte (encode i)]

/-- The 16-bit word whose low `nbits` bits are those of `w`, every bit above them 0 (the host's numbering of a table row). -/
def tableWord (nbits w : Nat) : Word := BitVec.ofNat 16 (w % 2 ^ nbits)

/-- What the decoder reads from the bytes of a table row's word. -/
def decodeTableWord (nbits w : Nat) : Option Instr :=
  match decodeBytes [highByte (tableWord nbits w), lowByte (tableWord nbits w)] with
  | .ok (i, _) => some i
  | .error _ => none

end Sys2Proof
end

