-- ==== Sys2Proof/Config.lean ====
section
/-! DEFINITION. The parameters of the block (spec/00_scope.md R8 to R12): fixed before reset is released and constant for
the run (R40). Illegal parameter values cannot be written down (notes/assumptions/3.md). The spec leaves no value of an
instruction undefined, so there is no free value here. -/

namespace Sys2Proof

/-- COMPAT_MODE (R12): which register the two shift instructions shift. -/
inductive CompatMode where
  /-- `VY_SOURCE`: V[y] is shifted into V[x]. -/
  | vySource
  /-- `VX_IN_PLACE`: V[x] is shifted in place, y is ignored. -/
  | vxInPlace
deriving DecidableEq, Repr

/-- DRAW_COLUMN_SOURCE (R11): how Draw gets the starting column of each row. -/
inductive DrawColumnSource where
  /-- `LATCHED`: the column computed once, before VF is cleared. -/
  | latched
  /-- `REREAD`: V[x] read again at the start of every row. -/
  | reread
deriving DecidableEq, Repr

/-- STACK_DEPTH (R10): `UNBOUNDED`, or an integer that is at least 1. -/
inductive StackDepth where
  | unbounded
  /-- A finite STACK_DEPTH of `extra + 1` entries: written so that a depth of 0 does not exist. -/
  | finite (extra : Nat)
deriving DecidableEq, Repr

/-- The most entries S may hold, `none` for `UNBOUNDED` (R10, R33). -/
def StackDepth.limit : StackDepth → Option Nat
  | .unbounded => none
  | .finite extra => some (extra + 1)

/-- The parameters. The display sizes are given by their binary logarithms: R9 allows exactly the powers of two. -/
structure Config where
  displayWLog      : Nat
  displayHLog      : Nat
  stackDepth       : StackDepth
  compatMode       : CompatMode
  drawColumnSource : DrawColumnSource
deriving DecidableEq, Repr

/-- DISPLAY_W, the framebuffer's width in pixels (R9). -/
def Config.displayW (c : Config) : Nat := 2 ^ c.displayWLog

/-- DISPLAY_H, the framebuffer's height in pixels (R9). -/
def Config.displayH (c : Config) : Nat := 2 ^ c.displayHLog

/-- The number of framebuffer cells, DISPLAY_W × DISPLAY_H (R34). -/
def Config.cells (c : Config) : Nat := c.displayW * c.displayH

/-- The recommended size 64 × 32 (R9) and the spec's defaults of the other parameters (R10, R11, R12).
DESIGN CHOICE (notes/assumptions/2.md): the spec fixes no size. -/
def Config.recommended : Config :=
  { displayWLog := 6, displayHLog := 5, stackDepth := .unbounded, compatMode := .vySource, drawColumnSource := .latched }

/-- PROGRAM_BASE: where a program is loaded and where execution starts (R8, R29). -/
def programBase : Addr := 0x200

end Sys2Proof
end

