-- ==== Sys2Proof/Machine/State.lean ====
section
/-! DEFINITION. The state of the block (spec/10_state.md R20), the ports it is reached through (spec/40_cycle.md R86),
the reasons a step may stop, and the machine after reset (R42, R185). -/

namespace Sys2Proof.Machine

/-- RUN_STATE (R37, R38). -/
inductive RunState where
  /-- After reset: loading is allowed and no cycle runs. -/
  | idle
  /-- Cycles run. -/
  | running
  /-- The display sink reported closed: a clean end. -/
  | stopped
  /-- A fatal condition ended the run. -/
  | faulted
deriving DecidableEq, Repr

/-- ERR_KIND: the fatal conditions (R37, R165). -/
inductive ErrKind where
  | none
  | decodeError
  | stackUnderflow
  /-- Reserved: never raised by this block (R166). -/
  | addressRangeError
  | stackOverflow
deriving DecidableEq, Repr

/-- What the environment can do at the input ports between two cycles (R86, R88).
DESIGN CHOICE (notes/assumptions/9.md): one of them a step. -/
inductive PortEvent where
  /-- `rst` asserted (R185). -/
  | rst
  /-- `ld_we` with `ld_addr` and `ld_data` (R101). -/
  | load (addr : Addr) (data : Byte)
  /-- `start` asserted (R89). -/
  | start
  /-- `cycle_req`: one cycle permitted (R86, R103). -/
  | cycleReq
  /-- The level on `sink_open` becomes `isOpen` (R86, R97). -/
  | sink (isOpen : Bool)
  /-- An interval in which nothing is asserted (R98). -/
  | idle
deriving DecidableEq, Repr

/-- M: the bytes that differ from what an unlisted address reads as, addresses strictly rising. -/
abbrev Memory := List Host.Cell

/-- The machine. The first eleven fields are the spec's state (R20). `cfg` holds the parameters, which no step changes
(R40; notes/assumptions/1.md). The last four are the ports (R86; notes/assumptions/4.md to 6.md). -/
structure State where
  /-- V[0..15] (R21); VF is V[0xF] (R23). -/
  v         : Vector Byte 16
  /-- PC (R25). -/
  pc        : Addr
  /-- I (R31). -/
  i         : Word
  /-- S, the top entry first (R32; notes/assumptions/11.md). -/
  stack     : List Addr
  /-- M (R36). -/
  mem       : Memory
  /-- FB, flat and row-major: cell (r, c) is element r × DISPLAY_W + c (R34). -/
  fb        : List Bool
  /-- RUN_STATE (R37). -/
  runState  : RunState
  /-- ERR_KIND (R37). -/
  errKind   : ErrKind
  /-- ERR_ADDR (R37). -/
  errAddr   : Addr
  /-- ERR_OPCODE (R37). -/
  errOpcode : Word
  /-- DISPLAY_W, DISPLAY_H, STACK_DEPTH, COMPAT_MODE, DRAW_COLUMN_SOURCE (R40). -/
  cfg       : Config
  /-- The level on the input `sink_open` (R86). -/
  sinkOpen  : Bool
  /-- The port events the environment has yet to make, oldest first (R86). -/
  pending   : List PortEvent
  /-- How many `fb_update` events there have been (R95). -/
  fbUpdates : Nat
  /-- What `fb_out` carried at the latest `fb_update` (R95, R96). -/
  lastFrame : Option (List Bool)
deriving DecidableEq, Repr

/-- Why a step can fault. A fatal condition of the block is NOT one: it is a next state in FAULTED (R167). -/
inductive Fault where
  /-- The source's "construction of an Address outside [0, 0xFFF]". Raised by nobody: every address is 12 bits wide
  (R166). Safe, since no step answers it. -/
  | addressRangeError
deriving DecidableEq, Repr

/-- Why a step can be refused. -/
inductive Refusal where
  /-- An instruction without a meaning, raised by its arm of `exec`. Safe; no arm raises it now. -/
  | notModelled (mnemonic : String)
deriving DecidableEq, Repr

/-- What a step of this machine answers. -/
abbrev StepOutcome := Host.Outcome State Fault Refusal

/-- The values after reset under parameters `cfg` (R42, R185), with the ports before the environment has touched them
(notes/assumptions/4.md to 6.md). -/
def State.resetWith (cfg : Config) : State :=
  { v := Vector.replicate 16 0x00
    pc := programBase
    i := 0x0000
    stack := []
    mem := []
    fb := List.replicate cfg.cells false
    runState := .idle
    errKind := .none
    errAddr := 0x000
    errOpcode := 0x0000
    cfg := cfg
    sinkOpen := true
    pending := []
    fbUpdates := 0
    lastFrame := none }

/-- The machine right after reset, with the recommended parameters (notes/assumptions/2.md). -/
def State.reset : State := State.resetWith Config.recommended

end Sys2Proof.Machine
end

