-- ==== Sys2Proof/Machine/Ops.lean ====
section
/-! DEFINITION. The named operations over memory, registers, stack and framebuffer; fetching; presenting; taking a fatal
condition, and reset, which is the only way out of one (spec/60_exceptions.md R167, R174). -/

namespace Sys2Proof.Machine

/-! ## Addresses and widths -/

/-- `addr12(v) = trunc_12(v)`: all address arithmetic wraps modulo 4096 (R30). -/
def addr12 (v : Nat) : Addr := BitVec.ofNat 12 v

/-- `trunc_8(v)`, "wraparound (not saturating)" (R14, R120). -/
def trunc8 (v : Nat) : Byte := BitVec.ofNat 8 v

/-! ## Memory -/

/-- What an address that is not listed reads as: the reset contents 0x00 (R42). -/
def unlistedByte : Byte := 0x00

/-- The byte at `a` (R45, R52). -/
def Memory.lookup : Memory → Nat → Byte
  | [], _ => unlistedByte
  | (k, b) :: rest, a => if k = a then b else Memory.lookup rest a

/-- `m` with byte `b` at `a`, canonical again: writing the unlisted value removes the entry. -/
def Memory.store : Memory → Nat → Byte → Memory
  | [], a, b => if b = unlistedByte then [] else [(a, b)]
  | (k, c) :: rest, a, b =>
    if a < k then (if b = unlistedByte then (k, c) :: rest else (a, b) :: (k, c) :: rest)
    else if a = k then (if b = unlistedByte then rest else (a, b) :: rest)
    else (k, c) :: Memory.store rest a b

/-- Canonical from address `lo` on: strictly rising, below 4096, no entry equal to the unlisted byte. -/
def Memory.wfFrom (lo : Nat) : Memory → Bool
  | [] => true
  | (k, b) :: rest => decide (lo ≤ k) && decide (k < 4096) && b != unlistedByte && Memory.wfFrom (k + 1) rest

/-- The canonical form: equal memories are equal lists. -/
def Memory.wf (m : Memory) : Bool := Memory.wfFrom 0 m

/-- `MemRead(a, 1)` (R15): every address is readable and a read has no side effect (R52). -/
def State.readByte (s : State) (a : Addr) : Byte := Memory.lookup s.mem a.toNat

/-- `M[a] <- b`: only the loader port does this (R50). -/
def State.writeByte (s : State) (a : Addr) (b : Byte) : State := { s with mem := Memory.store s.mem a.toNat b }

/-! ## Registers -/

/-- `V[x]` (R15, R21). -/
def State.readV (s : State) (x : Reg) : Byte := s.v[x.toNat]'x.isLt

/-- `V[x] <- b` (R15): no register is hardwired (R21). -/
def State.writeV (s : State) (x : Reg) (b : Byte) : State := { s with v := s.v.set x.toNat b x.isLt }

/-- The number of VF, the flag register (R8, R23). -/
def regVF : Reg := 0xF

/-- `PC <- a` (R15). -/
def State.writePC (s : State) (a : Addr) : State := { s with pc := a }

/-- `I <- w` (R15, R31). -/
def State.writeI (s : State) (w : Word) : State := { s with i := w }

/-! ## Call stack -/

/-- S holds STACK_DEPTH entries; never so when it is `UNBOUNDED` (R33, R108). -/
def State.stackFull (s : State) : Bool :=
  match s.cfg.stackDepth.limit with
  | none => false
  | some depth => s.stack.length == depth

/-- `push(S, a)` (R15). -/
def State.push (s : State) (a : Addr) : State := { s with stack := a :: s.stack }

/-- S becomes `rest`: what `pop(S)` leaves (R15). -/
def State.withStack (s : State) (rest : List Addr) : State := { s with stack := rest }

/-! ## Framebuffer -/

/-- "flat element `r * DISPLAY_W + c`" (R34). -/
def State.cellIndex (s : State) (row col : Nat) : Nat := row * s.cfg.displayW + col

/-- `FB[row][col]`, true when the pixel is on (R34). -/
def State.pixel (s : State) (row col : Nat) : Bool := s.fb.getD (s.cellIndex row col) false

/-- `FB[row][col] <- b` (R15). -/
def State.writePixel (s : State) (row col : Nat) (b : Bool) : State :=
  { s with fb := s.fb.set (s.cellIndex row col) b }

/-- Every cell false (R141); the shape stays (R44). -/
def State.clearFB (s : State) : State := { s with fb := List.replicate s.cfg.cells false }

/-! ## Fetch and present -/

/-- One byte read at PC, and PC advanced by 1 (R90). -/
def State.fetchByte (s : State) : Byte × State := (s.readByte s.pc, s.writePC (addr12 (s.pc.toNat + 1)))

/-- The opcode at PC, high byte first, and the state with PC advanced by 2 (R90, R91). -/
def State.fetch (s : State) : Word × State :=
  let hi := s.fetchByte
  let lo := hi.2.fetchByte
  (wordOfBytes hi.1 lo.1, lo.2)

/-- A, where the instruction being executed was fetched: PC is addr12(A + 2) during execute (R26).
DEDUCED (notes/assumptions/10.md). -/
def State.fetchAddress (s : State) : Addr := addr12 (s.pc.toNat + 4096 - 2)

/-- The present step: one `fb_update` event that carries FB (R95). -/
def State.present (s : State) : State := { s with fbUpdates := s.fbUpdates + 1, lastFrame := some s.fb }

/-! ## Fatal conditions and reset -/

/-- `raise E(a, w)` (R167): the status record is written and the run is over. Nothing else changes (R168). -/
def State.raise (s : State) (e : ErrKind) (a : Addr) (w : Word) : State :=
  { s with errKind := e, errAddr := a, errOpcode := w, runState := .faulted }

/-- What `rst` does: every element of R20 to its reset value (R42, R185). The parameters are constant (R40); the ports
are the environment's and keep what they hold (notes/assumptions/5.md, 6.md). -/
def State.rst (s : State) : State :=
  { State.resetWith s.cfg with
    sinkOpen := s.sinkOpen, pending := s.pending, fbUpdates := s.fbUpdates, lastFrame := s.lastFrame }

/-! ## The output ports (R86) -/

/-- RUN_STATE as the 2-bit port `run_state` shows it (R37). -/
def RunState.code : RunState → BitVec 2
  | .idle => 0
  | .running => 1
  | .stopped => 2
  | .faulted => 3

/-- ERR_KIND as the 3-bit port `err_kind` shows it (R37); 5 to 7 are never produced. -/
def ErrKind.code : ErrKind → BitVec 3
  | .none => 0
  | .decodeError => 1
  | .stackUnderflow => 2
  | .addressRangeError => 3
  | .stackOverflow => 4

/-- `fb_out`: "FB, flat row-major" (R86, R96). -/
def State.fbOut (s : State) : List Bool := s.fb

/-- The port `run_state` (R86). -/
def State.runStatePort (s : State) : BitVec 2 := s.runState.code

/-- The port `err_kind` (R86). -/
def State.errKindPort (s : State) : BitVec 3 := s.errKind.code

end Sys2Proof.Machine
end

