-- ==== Sys2Proof/Machine/Operands.lean ====
section
/-! DEFINITION. The operand forms: registers and immediates as R67 assembles them, the source of a shift, and the
coordinates and sprite bytes of Draw (spec/43_index_and_framebuffer.md R143, R147, R150). -/

namespace Sys2Proof.Machine

/-- `zext_16(nnn)`: an address immediate as a value of I (R67, R140). -/
def immediateI (nnn : Addr) : Word := nnn.zeroExtend 16

/-- The shifted operand: V[y] under `VY_SOURCE`, V[x] under `VX_IN_PLACE`, which ignores y (R131, R132). -/
def State.shiftSource (s : State) (x y : Reg) : Byte :=
  match s.cfg.compatMode with
  | .vySource => s.readV y
  | .vxInPlace => s.readV x

/-- `V[x] mod W` (R143). -/
def State.columnOf (s : State) (x : Reg) : Nat := (s.readV x).toNat % s.cfg.displayW

/-- `V[y] mod H` (R143). -/
def State.rowOf (s : State) (y : Reg) : Nat := (s.readV y).toNat % s.cfg.displayH

/-- The column a sprite row starts at, when step 1 of Draw computed `c0` (R145, R147). -/
def State.rowStart (s : State) (x : Reg) (c0 : Nat) : Nat :=
  match s.cfg.drawColumnSource with
  | .latched => c0
  | .reread => s.columnOf x

/-- `MemRead(addr12(I + r), 1)`, the byte of sprite row `r` (R150). -/
def State.spriteByte (s : State) (r : Nat) : Byte := s.readByte (addr12 (s.i.toNat + r))

/-- The bits of a sprite byte, "most-significant bit first" (R145). -/
def spriteBits (b : Byte) : List Bool :=
  [b.getLsbD 7, b.getLsbD 6, b.getLsbD 5, b.getLsbD 4, b.getLsbD 3, b.getLsbD 2, b.getLsbD 1, b.getLsbD 0]

/-- `if condition: PC <- addr12(PC + 2)`, the one mechanism of the four skips (R110). -/
def State.skipIf (s : State) (condition : Bool) : State :=
  if condition then s.writePC (addr12 (s.pc.toNat + 2)) else s

end Sys2Proof.Machine
end

