-- ==== Sys2Proof/Machine/Flags.lean ====
section
/-! DEFINITION. The flag computations (spec/42_register_alu.md R120, R121, R128 to R132; R148 of file 43) and the write of a
result with its flag. VF is the only flag of the block (R23). -/

namespace Sys2Proof.Machine

/-- A flag as the register value 0x00 or 0x01. -/
def flagByte (b : Bool) : Byte := if b then 0x01 else 0x00

/-- Carry out of bit 7: `a + b > 0xFF` (R128). -/
def carryOut (a b : Byte) : Bool := decide (a.toNat + b.toNat > 0xFF)

/-- No borrow in `a - b`: `a >= b`, equality included (R129, R130). -/
def noBorrow (a b : Byte) : Bool := decide (a.toNat ≥ b.toNat)

/-- The bit a right shift pushes out, s[0] (R131). -/
def shiftedOutRight (s : Byte) : Bool := s.getLsbD 0

/-- The bit a left shift pushes out, s[7] (R132). -/
def shiftedOutLeft (s : Byte) : Bool := s.getLsbD 7

/-- A pixel "transitions from set to unset" (R148). -/
def collides (old new : Bool) : Bool := old && !new

/-- `V[x] <- result`, then `V[0xF] <- flag`: the flag is written last, so it survives when x = 0xF (R121). -/
def State.writeWithFlag (s : State) (x : Reg) (result : Byte) (flag : Bool) : State :=
  (s.writeV x result).writeV regVF (flagByte flag)

end Sys2Proof.Machine
end

