-- ==== Sys2Proof/Machine/Alu.lean ====
section
/-! DEFINITION. The register and arithmetic instructions (spec/42_register_alu.md). Every operand is read before anything is
written, and a flag is written after the result (R121). Sums and differences are exact, then narrowed (R14, R120). -/

namespace Sys2Proof.Machine

/-- SetVX: `V[x] <- nn` (R122). -/
def execSetVX (x : Reg) (nn : Byte) (s : State) : StepOutcome := .next (s.writeV x nn)

/-- AddVX: `V[x] <- trunc_8(V[x] + nn)`, no flag (R123). -/
def execAddVX (x : Reg) (nn : Byte) (s : State) : StepOutcome :=
  .next (s.writeV x (trunc8 ((s.readV x).toNat + nn.toNat)))

/-- SetVXToVY: `V[x] <- V[y]` (R124). -/
def execSetVXToVY (x y : Reg) (s : State) : StepOutcome := .next (s.writeV x (s.readV y))

/-- OrVXVY: `V[x] <- V[x] OR V[y]` (R125). -/
def execOrVXVY (x y : Reg) (s : State) : StepOutcome := .next (s.writeV x (s.readV x ||| s.readV y))

/-- AndVXVY: `V[x] <- V[x] AND V[y]` (R126). -/
def execAndVXVY (x y : Reg) (s : State) : StepOutcome := .next (s.writeV x (s.readV x &&& s.readV y))

/-- XorVXVY: `V[x] <- V[x] XOR V[y]` (R127). -/
def execXorVXVY (x y : Reg) (s : State) : StepOutcome := .next (s.writeV x (s.readV x ^^^ s.readV y))

/-- AddVYToVX: the sum, and VF = carry (R128). -/
def execAddVYToVX (x y : Reg) (s : State) : StepOutcome :=
  let a := s.readV x
  let b := s.readV y
  .next (s.writeWithFlag x (trunc8 (a.toNat + b.toNat)) (carryOut a b))

/-- SubVYFromVX: `trunc_8(a - b + 0x100)`, and VF = no borrow (R129). -/
def execSubVYFromVX (x y : Reg) (s : State) : StepOutcome :=
  let a := s.readV x
  let b := s.readV y
  .next (s.writeWithFlag x (trunc8 (a.toNat + 0x100 - b.toNat)) (noBorrow a b))

/-- SubVXFromVY: `trunc_8(b - a + 0x100)`, and VF = no borrow (R130). -/
def execSubVXFromVY (x y : Reg) (s : State) : StepOutcome :=
  let a := s.readV x
  let b := s.readV y
  .next (s.writeWithFlag x (trunc8 (b.toNat + 0x100 - a.toNat)) (noBorrow b a))

/-- ShiftRight: the source COMPAT_MODE selects, one place right, and VF = the bit shifted out (R131). -/
def execShiftRight (x y : Reg) (s : State) : StepOutcome :=
  let src := s.shiftSource x y
  .next (s.writeWithFlag x (src >>> 1) (shiftedOutRight src))

/-- ShiftLeft: the source COMPAT_MODE selects, one place left, and VF = the bit shifted out (R132). -/
def execShiftLeft (x y : Reg) (s : State) : StepOutcome :=
  let src := s.shiftSource x y
  .next (s.writeWithFlag x (src <<< 1) (shiftedOutLeft src))

end Sys2Proof.Machine
end

