-- ==== Sys2Proof/Machine/Control.lean ====
section
/-! DEFINITION. Control transfer (spec/41_control_flow.md): Return, Jump, Call and the four skips. On entry
PC = addr12(A + 2) (R26). -/

namespace Sys2Proof.Machine

/-- Return: `pop(S)` into PC, or StackUnderflow(A, w) (R105, R106). -/
def execReturn (s : State) : StepOutcome :=
  match s.stack with
  | [] => .next (s.raise .stackUnderflow s.fetchAddress (encode .ret))
  | top :: rest => .next ((s.withStack rest).writePC top)

/-- Jump: `PC <- nnn` (R107). -/
def execJump (nnn : Addr) (s : State) : StepOutcome := .next (s.writePC nnn)

/-- Call: StackOverflow(A, w) when a finite S is full, else `push(S, PC); PC <- nnn` (R108). -/
def execCall (nnn : Addr) (s : State) : StepOutcome :=
  if s.stackFull then .next (s.raise .stackOverflow s.fetchAddress (encode (.call nnn)))
  else .next ((s.push s.pc).writePC nnn)

/-- SkipIfEqual: `V[x] = nn` (R111). -/
def execSkipIfEqual (x : Reg) (nn : Byte) (s : State) : StepOutcome := .next (s.skipIf (s.readV x == nn))

/-- SkipIfNotEqual: `V[x] ≠ nn` (R112). -/
def execSkipIfNotEqual (x : Reg) (nn : Byte) (s : State) : StepOutcome := .next (s.skipIf (s.readV x != nn))

/-- SkipIfEqualXY: `V[x] = V[y]` (R113). -/
def execSkipIfEqualXY (x y : Reg) (s : State) : StepOutcome := .next (s.skipIf (s.readV x == s.readV y))

/-- SkipIfNotEqualXY: `V[x] ≠ V[y]` (R114). -/
def execSkipIfNotEqualXY (x y : Reg) (s : State) : StepOutcome := .next (s.skipIf (s.readV x != s.readV y))

end Sys2Proof.Machine
end

