-- ==== Sys2Proof/Machine/Display.lean ====
section
/-! DEFINITION. The index register and the framebuffer (spec/43_index_and_framebuffer.md): SetIRegister, ClearScreen, and
Draw with its XOR compositor (R149) and collision detector (R148). -/

namespace Sys2Proof.Machine

/-- SetIRegister: `I <- zext_16(nnn)` (R140). -/
def execSetIRegister (nnn : Addr) (s : State) : StepOutcome := .next (s.writeI (immediateI nnn))

/-- ClearScreen: every cell false (R141). -/
def execClearScreen (s : State) : StepOutcome := .next s.clearFB

/-- One composed pixel: `new = old XOR bit`, and VF = 1 on a collision (R148, R149). -/
def composePixel (row col : Nat) (bit : Bool) (s : State) : State :=
  let old := s.pixel row col
  let new := old ^^ bit
  let written := s.writePixel row col new
  if collides old new then written.writeV regVF 0x01 else written

/-- The bits of one sprite row from column `col` on; the first one at or past W ends the row (R146). -/
def composeBits (row : Nat) : List Bool → Nat → State → State
  | [], _, s => s
  | bit :: bits, col, s =>
    if col ≥ s.cfg.displayW then s else composeBits row bits (col + 1) (composePixel row col bit s)

/-- Sprite rows `r`, `r + 1`, …, `k` of them; the first one at or past H ends the Draw (R145, R146). -/
def drawRows (x : Reg) (c0 r0 : Nat) : Nat → Nat → State → State
  | 0, _, s => s
  | k + 1, r, s =>
    if r0 + r ≥ s.cfg.displayH then s
    else drawRows x c0 r0 k (r + 1) (composeBits (r0 + r) (spriteBits (s.spriteByte r)) (s.rowStart x c0) s)

/-- Draw: the starting coordinates, then VF cleared, then the rows (R143, R144, R145). -/
def execDraw (x y : Reg) (n : BitVec 4) (s : State) : StepOutcome :=
  let c0 := s.columnOf x
  let r0 := s.rowOf y
  .next (drawRows x c0 r0 n.toNat 0 (s.writeV regVF 0x00))

end Sys2Proof.Machine
end

