-- ==== Sys2Proof/Machine/Dispatch.lean ====
section
/-! DEFINITION. exec: one arm per instruction, each one call of its meaning: "an explicit exhaustive match" (R94). -/

namespace Sys2Proof.Machine

def exec (i : Instr) (s : State) : Host.Outcome State Fault Refusal :=
  match i with
  | .clearScreen => Sys2Proof.Machine.execClearScreen s
  | .ret => Sys2Proof.Machine.execReturn s
  | .jump nnn => Sys2Proof.Machine.execJump nnn s
  | .call nnn => Sys2Proof.Machine.execCall nnn s
  | .skipIfEqual x nn => Sys2Proof.Machine.execSkipIfEqual x nn s
  | .skipIfNotEqual x nn => Sys2Proof.Machine.execSkipIfNotEqual x nn s
  | .skipIfEqualXY x y => Sys2Proof.Machine.execSkipIfEqualXY x y s
  | .setVX x nn => Sys2Proof.Machine.execSetVX x nn s
  | .addVX x nn => Sys2Proof.Machine.execAddVX x nn s
  | .setVXToVY x y => Sys2Proof.Machine.execSetVXToVY x y s
  | .orVXVY x y => Sys2Proof.Machine.execOrVXVY x y s
  | .andVXVY x y => Sys2Proof.Machine.execAndVXVY x y s
  | .xorVXVY x y => Sys2Proof.Machine.execXorVXVY x y s
  | .addVYToVX x y => Sys2Proof.Machine.execAddVYToVX x y s
  | .subVYFromVX x y => Sys2Proof.Machine.execSubVYFromVX x y s
  | .shiftRight x y => Sys2Proof.Machine.execShiftRight x y s
  | .subVXFromVY x y => Sys2Proof.Machine.execSubVXFromVY x y s
  | .shiftLeft x y => Sys2Proof.Machine.execShiftLeft x y s
  | .skipIfNotEqualXY x y => Sys2Proof.Machine.execSkipIfNotEqualXY x y s
  | .setIRegister nnn => Sys2Proof.Machine.execSetIRegister nnn s
  | .draw x y n => Sys2Proof.Machine.execDraw x y n s

end Sys2Proof.Machine
end

