-- ==== Sys2Proof/Machine/Cycle.lean ====
section
/-! DEFINITION. The fetch-decode-execute-present cycle (spec/40_cycle.md R87 to R103) and what each event at the input ports
does (R86, R89, R101; R185 of file 70). -/

namespace Sys2Proof.Machine

/-- The present step follows a cycle that raised no fatal condition, and only such a cycle (R95, R96). -/
def presentUnlessFaulted (s : State) : State := if s.runState = .faulted then s else s.present

/-- Execute, then present (R94, R95). -/
def executeAndPresent (i : Instr) (s : State) : StepOutcome :=
  match exec i s with
  | .next t => .next (presentUnlessFaulted t)
  | .fault r => .fault r
  | .refused r => .refused r

/-- Fetch, decode, execute, present; DecodeError(A, w) when the word is illegal (R90 to R95). -/
def runInstruction (s : State) : StepOutcome :=
  match decodeWord s.fetch.1 with
  | .ok i => executeAndPresent i s.fetch.2
  | .error _ => .next (s.fetch.2.raise .decodeError s.pc s.fetch.1)

/-- One `cycle_req`: no effect unless RUNNING (R89); a closed sink stops the run before the fetch (R97). -/
def cycle (s : State) : StepOutcome :=
  match s.runState with
  | .running => if s.sinkOpen then runInstruction s else .next { s with runState := .stopped }
  | .idle => .next s
  | .stopped => .next s
  | .faulted => .next s

/-- The loader port: one byte into M in IDLE, ignored in any other state (R50, R101). -/
def loadPort (addr : Addr) (data : Byte) (s : State) : State :=
  if s.runState = .idle then s.writeByte addr data else s

/-- `start`: IDLE to RUNNING, no effect in any other state (R89). -/
def startPort (s : State) : State := if s.runState = .idle then { s with runState := .running } else s

/-- What one event at the input ports does (R86). -/
def portEvent (e : PortEvent) (s : State) : StepOutcome :=
  match e with
  | .rst => .next s.rst
  | .load addr data => .next (loadPort addr data s)
  | .start => .next (startPort s)
  | .cycleReq => cycle s
  | .sink isOpen => .next { s with sinkOpen := isOpen }
  | .idle => .next s

/-- The loader's writes of an image: byte k to `base + k` (R50). -/
def loadEvents : Addr → List Byte → List PortEvent
  | _, [] => []
  | base, b :: rest => .load base b :: loadEvents (addr12 (base.toNat + 1)) rest

/-- The boot order: `rst`, the image from 0x200, `start` (R188). -/
def bootEvents (image : List Byte) : List PortEvent := .rst :: (loadEvents programBase image ++ [.start])

end Sys2Proof.Machine
end

