-- ==== Sys2Proof/Machine/Step.lean ====
section
/-! DEFINITION. step: the next event at the input ports, and when none is pending one granted cycle
(notes/assumptions/4.md). -/

namespace Sys2Proof.Machine

/-- One step. DESIGN CHOICE (notes/assumptions/4.md): with nothing pending the environment issues `cycle_req`, as R195
assumes of it. -/
def step (s : State) : Host.Outcome State Fault Refusal :=
  match s.pending with
  | [] => cycle s
  | e :: rest => portEvent e { s with pending := rest }

/-- `s` about to run the table word `w`: its bytes stand at PC, the block is RUNNING with the sink open and no port event
pending. It stands for the load and `start` of R188 (notes/assumptions/12.md). -/
def State.withFetchWord (s : State) (nbits w : Nat) : State :=
  let atPC := s.writeByte s.pc (highByte (tableWord nbits w))
  let placed := atPC.writeByte (addr12 (s.pc.toNat + 1)) (lowByte (tableWord nbits w))
  { placed with runState := .running, sinkOpen := true, pending := [] }

end Sys2Proof.Machine
end

