-- ==== Sys2Proof/WellFormed.lean ====
section
/-! DEFINITION. What may be ill-formed, and its check.

An `Instr` cannot be: each field has exactly the width R66 gives it, and every value of every field is an encoding
(R70 to R74). What can be ill-formed is a 16-bit word that no row of the opcode table matches (R76, R77), a program image
that does not fit (R51), and a set of parameters outside R9 and R10. -/

namespace Sys2Proof

/-- One row of spec/opcode_table.json: a word belongs to it when its bits under `mask` are `pattern`. -/
structure OpcodeRow where
  mnemonic : String
  pattern  : Word
  mask     : Word
deriving DecidableEq, Repr

/-- The rows of families 0x0 to 0x7 (R69 to R72). -/
def opcodeRowsLow : List OpcodeRow :=
  [ ⟨"ClearScreen", 0x00E0, 0xFFFF⟩, ⟨"Return", 0x00EE, 0xFFFF⟩, ⟨"Jump", 0x1000, 0xF000⟩, ⟨"Call", 0x2000, 0xF000⟩,
    ⟨"SkipIfEqual", 0x3000, 0xF000⟩, ⟨"SkipIfNotEqual", 0x4000, 0xF000⟩, ⟨"SkipIfEqualXY", 0x5000, 0xF00F⟩,
    ⟨"SetVX", 0x6000, 0xF000⟩, ⟨"AddVX", 0x7000, 0xF000⟩ ]

/-- The rows of families 0x8 to 0xD (R70, R72 to R74). -/
def opcodeRowsHigh : List OpcodeRow :=
  [ ⟨"SetVXToVY", 0x8000, 0xF00F⟩, ⟨"OrVXVY", 0x8001, 0xF00F⟩, ⟨"AndVXVY", 0x8002, 0xF00F⟩, ⟨"XorVXVY", 0x8003, 0xF00F⟩,
    ⟨"AddVYToVX", 0x8004, 0xF00F⟩, ⟨"SubVYFromVX", 0x8005, 0xF00F⟩, ⟨"ShiftRight", 0x8006, 0xF00F⟩,
    ⟨"SubVXFromVY", 0x8007, 0xF00F⟩, ⟨"ShiftLeft", 0x800E, 0xF00F⟩, ⟨"SkipIfNotEqualXY", 0x9000, 0xF00F⟩,
    ⟨"SetIRegister", 0xA000, 0xF000⟩, ⟨"Draw", 0xD000, 0xF000⟩ ]

/-- "The decoded set is exactly the rows of opcode_table.json, 21 instructions in all" (R76). -/
def opcodeTable : List OpcodeRow := opcodeRowsLow ++ opcodeRowsHigh

/-- The word matches the row. -/
def OpcodeRow.matchesWord (r : OpcodeRow) (w : Word) : Bool := w &&& r.mask == r.pattern

/-- No word matches both rows: their patterns differ under the bits both compare. -/
def OpcodeRow.disjoint (r q : OpcodeRow) : Bool := r.pattern &&& q.mask != q.pattern &&& r.mask

/-- The word is in R76's set; every other word is illegal (R77). -/
def legalWord (w : Word) : Bool := opcodeTable.any (fun r => r.matchesWord w)

/-- R51: "The image length must be at most 0xE00 = 3584 bytes". Refusing a longer one is the loader's job. -/
def imageFits (image : List Byte) : Bool := image.length ≤ 0xE00

/-- R9: a display size is a power of two, at least 1. -/
def legalSize (n : Nat) : Bool := n != 0 && 2 ^ n.log2 == n

/-- R10: a finite STACK_DEPTH is at least 1; `none` is `UNBOUNDED`. -/
def legalDepth : Option Nat → Bool
  | none => true
  | some n => 1 ≤ n

/-- The parameters of a run from their plain values, refused where R9 or R10 forbids them. -/
def Config.ofParameters? (w h : Nat) (depth : Option Nat) (mode : CompatMode) (column : DrawColumnSource) : Option Config :=
  if legalSize w && legalSize h && legalDepth depth then
    some { displayWLog := w.log2, displayHLog := h.log2,
           stackDepth := match depth with
             | none => .unbounded
             | some n => .finite (n - 1),
           compatMode := mode, drawColumnSource := column }
  else none

end Sys2Proof
end

