-- ==== Sys2Proof/Safety.lean ====
section
/-! DEFINITION. The terms the statements use: the invariant of the machine, what an instruction may change, when a cycle
runs, and a safe run. -/

namespace Sys2Proof.Machine

/-! ## The invariant -/

/-- What holds of the machine between any two steps. -/
structure State.Inv (s : State) : Prop where
  /-- M is in canonical form (notes/assumptions/13.md). -/
  memCanonical : Memory.wf s.mem = true
  /-- "I[15:12] = 0 at all times" (R31). -/
  indexInRange : s.i.toNat < 4096
  /-- The framebuffer "never changes shape" (R34, R44). -/
  fbShape : s.fb.length = s.cfg.cells
  /-- So every presented frame has that shape (R95). -/
  frameShape : ∀ f, s.lastFrame = some f → f.length = s.cfg.cells
  /-- There is a latest frame exactly when there has been an `fb_update`. -/
  frameCounted : s.lastFrame = none ↔ s.fbUpdates = 0
  /-- "The length of S is at most STACK_DEPTH" (R33). -/
  stackBounded : ∀ depth, s.cfg.stackDepth.limit = some depth → s.stack.length ≤ depth
  /-- FAULTED and a recorded fatal condition go together (R38, R39). -/
  faultedIff : s.runState = .faulted ↔ s.errKind ≠ .none
  /-- Without a fatal condition the record holds its reset values (R37, R39). -/
  noErrorNoRecord : s.errKind = .none → s.errAddr = 0x000 ∧ s.errOpcode = 0x0000
  /-- AddressRangeError is "never raised by this block" (R166). -/
  noAddressRangeError : s.errKind ≠ .addressRangeError
  /-- DecodeError records an illegal word (R165, R169). -/
  decodeErrorWord : s.errKind = .decodeError → legalWord s.errOpcode = false
  /-- StackUnderflow records 0x00EE (R165, R170). -/
  underflowWord : s.errKind = .stackUnderflow → s.errOpcode = 0x00EE
  /-- StackOverflow records a Call, and needs a finite STACK_DEPTH (R165, R171). -/
  overflowWord : s.errKind = .stackOverflow → family s.errOpcode = 0x2 ∧ s.cfg.stackDepth ≠ .unbounded
  /-- In IDLE no cycle has run: all but M is as reset left it (R38, R42). -/
  idleIsReset : s.runState = .idle →
    (∀ x, s.readV x = 0x00) ∧ s.i = 0x0000 ∧ s.stack = [] ∧ s.pc = 0x200 ∧ s.fb = List.replicate s.cfg.cells false

/-! ## What an instruction may change -/

/-- The stores an instruction may write: registers by number, and which of the other stores. -/
structure Writes where
  regs   : List Reg := []
  pc     : Bool := false
  index  : Bool := false
  stack  : Bool := false
  fb     : Bool := false
  status : Bool := false
deriving DecidableEq, Repr

/-- From `s` to `t` nothing changes but the stores in `w`. Memory, the parameters and the ports never do: no instruction
writes M (R47), the parameters are constant (R40), and the present step is not part of execute (R95). -/
def State.changesOnly (s : State) (w : Writes) (t : State) : Prop :=
  (∀ r, r ∉ w.regs → t.readV r = s.readV r) ∧
  (w.pc = false → t.pc = s.pc) ∧
  (w.index = false → t.i = s.i) ∧
  (w.stack = false → t.stack = s.stack) ∧
  (w.fb = false → t.fb = s.fb) ∧
  (w.status = false → t.runState = s.runState ∧ t.errKind = s.errKind ∧ t.errAddr = s.errAddr ∧ t.errOpcode = s.errOpcode) ∧
  (∀ a, t.readByte a = s.readByte a) ∧
  t.cfg = s.cfg ∧ t.sinkOpen = s.sinkOpen ∧ t.pending = s.pending ∧ t.fbUpdates = s.fbUpdates ∧ t.lastFrame = s.lastFrame

/-- The stores the spec lets each instruction write during execute: V[x] and VF (R22, R24), PC (R27), I (R31), S (R32),
FB (R35), and the status record for the two that can raise a fatal condition (R165). -/
def writesOf : Instr → Writes
  | .clearScreen => { fb := true }
  | .ret => { pc := true, stack := true, status := true }
  | .jump _ => { pc := true }
  | .call _ => { pc := true, stack := true, status := true }
  | .skipIfEqual _ _ => { pc := true }
  | .skipIfNotEqual _ _ => { pc := true }
  | .skipIfEqualXY _ _ => { pc := true }
  | .setVX x _ => { regs := [x] }
  | .addVX x _ => { regs := [x] }
  | .setVXToVY x _ => { regs := [x] }
  | .orVXVY x _ => { regs := [x] }
  | .andVXVY x _ => { regs := [x] }
  | .xorVXVY x _ => { regs := [x] }
  | .addVYToVX x _ => { regs := [x, 0xF] }
  | .subVYFromVX x _ => { regs := [x, 0xF] }
  | .shiftRight x _ => { regs := [x, 0xF] }
  | .subVXFromVY x _ => { regs := [x, 0xF] }
  | .shiftLeft x _ => { regs := [x, 0xF] }
  | .skipIfNotEqualXY _ _ => { pc := true }
  | .setIRegister _ => { index := true }
  | .draw _ _ _ => { regs := [0xF], fb := true }

/-! ## When a cycle runs -/

/-- The environment grants a cycle now: the next port event is `cycle_req`, or none is pending (notes/assumptions/4.md).
`rest` is what is pending afterwards. -/
def State.grantsCycle (s : State) (rest : List PortEvent) : Prop :=
  (s.pending = [] ∧ rest = []) ∨ s.pending = .cycleReq :: rest

/-- A cycle runs now: granted, RUNNING, and the sink is open (R89, R97). -/
def State.takesCycle (s : State) (rest : List PortEvent) : Prop :=
  s.grantsCycle rest ∧ s.runState = .running ∧ s.sinkOpen = true

/-- The word a fetch at PC reads: two bytes, big-endian, the second address wrapping (R48, R54). -/
def State.wordAtPC (s : State) : Word := s.readByte s.pc ++ s.readByte (s.pc + 1)

/-- A cycle that runs from here has the cause of the fatal condition `e`: the word is illegal, it is a Return and S is empty,
or it is a Call and a finite S is full (R165, R169 to R171). The other two kinds have none (R166). -/
def State.hasCause (s : State) (e : ErrKind) : Prop :=
  match e with
  | .none => False
  | .decodeError => legalWord s.wordAtPC = false
  | .stackUnderflow => s.wordAtPC = 0x00EE ∧ s.stack = []
  | .addressRangeError => False
  | .stackOverflow => family s.wordAtPC = 0x2 ∧ ∃ depth, s.cfg.stackDepth.limit = some depth ∧ s.stack.length = depth

/-- The state execute starts from: PC past the word (R26), the port events after this cycle still pending. -/
def State.atExecute (s : State) (rest : List PortEvent) : State := { s with pc := s.pc + 2, pending := rest }

/-! ## The sprite of a Draw -/

/-- The bit a Draw of `n` rows from row `r0` composes into cell (row, col), when sprite row `r` starts at column `cols r`:
bit 7 − b of the byte at addr12(I + r) for row r0 + r and column cols r + b, and no bit elsewhere (R145, R150). Clipping is
that only cells of the framebuffer are asked for (R146). -/
def State.spriteBitAt (s : State) (n r0 : Nat) (cols : Nat → Nat) (row col : Nat) : Bool :=
  decide (r0 ≤ row) && decide (row - r0 < n) && decide (cols (row - r0) ≤ col) && decide (col - cols (row - r0) < 8) &&
    (s.readByte (BitVec.ofNat 12 (s.i.toNat + (row - r0)))).getLsbD (7 - (col - cols (row - r0)))

/-- A composed pixel of framebuffer row `row` goes from set to unset (R148). -/
def State.rowCollides (s : State) (n r0 : Nat) (cols : Nat → Nat) (row : Nat) : Prop :=
  ∃ col, col < s.cfg.displayW ∧ s.pixel row col = true ∧ s.spriteBitAt n r0 cols row col = true

/-! ## Safe runs -/

/-- The block is not in FAULTED (R38). -/
def State.safe (s : State) : Prop := s.runState ≠ .faulted

/-- The next `k` steps all answer a next state, and no state on the way is in FAULTED. -/
def State.runsSafely : Nat → State → Prop
  | 0, s => s.safe
  | k + 1, s => s.safe ∧ ∃ t, step s = .next t ∧ t.runsSafely k

end Sys2Proof.Machine
end

