-- ==== Sys2Proof/Certificates/Slice0/Obligations.lean ====
section
/-! DEFINITION. The statements for the provers, from the numbered rules of spec/. Each says the rule's effect in the terms of
Sys2Proof/Safety.lean, over every state that meets its hypotheses. -/

open Sys2Proof Sys2Proof.Machine

/-! ## Encoding -/

/-- R69 to R75: what every word of every family decodes to. -/
def Obligations.DecodeFollowsTheOpcodeMap : Prop :=
  (∀ nnn : Addr,
    (nnn = 0x0E0 → decodeWord (0x0#4 ++ nnn) = .ok .clearScreen) ∧
    (nnn = 0x0EE → decodeWord (0x0#4 ++ nnn) = .ok .ret) ∧
    (nnn ≠ 0x0E0 → nnn ≠ 0x0EE → ∃ e, decodeWord (0x0#4 ++ nnn) = .error e) ∧
    decodeWord (0x1#4 ++ nnn) = .ok (.jump nnn) ∧
    decodeWord (0x2#4 ++ nnn) = .ok (.call nnn) ∧
    decodeWord (0xA#4 ++ nnn) = .ok (.setIRegister nnn) ∧
    (∀ f : BitVec 4, f = 0xB ∨ f = 0xC ∨ f = 0xE ∨ f = 0xF → ∃ e, decodeWord (f ++ nnn) = .error e)) ∧
  (∀ (x : Reg) (nn : Byte),
    decodeWord (0x3#4 ++ x ++ nn) = .ok (.skipIfEqual x nn) ∧
    decodeWord (0x4#4 ++ x ++ nn) = .ok (.skipIfNotEqual x nn) ∧
    decodeWord (0x6#4 ++ x ++ nn) = .ok (.setVX x nn) ∧
    decodeWord (0x7#4 ++ x ++ nn) = .ok (.addVX x nn)) ∧
  (∀ (x y : Reg) (n : BitVec 4),
    (n = 0 → decodeWord (0x5#4 ++ x ++ y ++ n) = .ok (.skipIfEqualXY x y)) ∧
    (n ≠ 0 → ∃ e, decodeWord (0x5#4 ++ x ++ y ++ n) = .error e) ∧
    (n = 0 → decodeWord (0x9#4 ++ x ++ y ++ n) = .ok (.skipIfNotEqualXY x y)) ∧
    (n ≠ 0 → ∃ e, decodeWord (0x9#4 ++ x ++ y ++ n) = .error e) ∧
    decodeWord (0xD#4 ++ x ++ y ++ n) = .ok (.draw x y n) ∧
    (n = 0x8 ∨ n = 0x9 ∨ n = 0xA ∨ n = 0xB ∨ n = 0xC ∨ n = 0xD ∨ n = 0xF →
      ∃ e, decodeWord (0x8#4 ++ x ++ y ++ n) = .error e)) ∧
  (∀ x y : Reg,
    decodeWord (0x8#4 ++ x ++ y ++ 0x0#4) = .ok (.setVXToVY x y) ∧
    decodeWord (0x8#4 ++ x ++ y ++ 0x1#4) = .ok (.orVXVY x y) ∧
    decodeWord (0x8#4 ++ x ++ y ++ 0x2#4) = .ok (.andVXVY x y) ∧
    decodeWord (0x8#4 ++ x ++ y ++ 0x3#4) = .ok (.xorVXVY x y) ∧
    decodeWord (0x8#4 ++ x ++ y ++ 0x4#4) = .ok (.addVYToVX x y) ∧
    decodeWord (0x8#4 ++ x ++ y ++ 0x5#4) = .ok (.subVYFromVX x y) ∧
    decodeWord (0x8#4 ++ x ++ y ++ 0x6#4) = .ok (.shiftRight x y) ∧
    decodeWord (0x8#4 ++ x ++ y ++ 0x7#4) = .ok (.subVXFromVY x y) ∧
    decodeWord (0x8#4 ++ x ++ y ++ 0xE#4) = .ok (.shiftLeft x y))

/-- Words written out in 95_test_vectors.md section 2 (R84 among them), one of each kind. -/
def Obligations.WrittenOutWordsDecode : Prop :=
  decodeWord 0x00E0 = .ok .clearScreen ∧ decodeWord 0x00EE = .ok .ret ∧ decodeWord 0x1ABC = .ok (.jump 0xABC) ∧
  decodeWord 0x4A5B = .ok (.skipIfNotEqual 0xA 0x5B) ∧ decodeWord 0x5120 = .ok (.skipIfEqualXY 1 2) ∧
  decodeWord 0x8127 = .ok (.subVXFromVY 1 2) ∧ decodeWord 0x812E = .ok (.shiftLeft 1 2) ∧
  decodeWord 0xAFFF = .ok (.setIRegister 0xFFF) ∧ decodeWord 0xD12F = .ok (.draw 1 2 0xF) ∧
  (∃ e, decodeWord 0xFFFF = .error e) ∧ (∃ e, decodeWord 0x0000 = .error e) ∧ (∃ e, decodeWord 0x5121 = .error e)

/-- Decoding the two bytes of any instruction, as memory holds them, gives it back with every operand, and leaves the bytes
after it (R65, R76, R79). -/
def Obligations.DecodeGivesBackEveryEncodedInstruction : Prop :=
  (∀ i : Instr, decodeWord (encode i) = .ok i) ∧
  (∀ (i : Instr) (rest : List Byte), decodeBytes (encodeBytes i ++ rest) = .ok (i, rest))

/-- A word that decodes is the one word of its instruction: "No encoding has two meanings", and no instruction has two
encodings (R76). -/
def Obligations.EncodeGivesBackEveryDecodedWord : Prop :=
  ∀ (w : Word) (i : Instr), decodeWord w = .ok i → encode i = w

/-- A word decodes exactly when a row of the opcode table matches it (R76, R77). -/
def Obligations.DecodeSucceedsExactlyOnTableWords : Prop :=
  ∀ w : Word, (∃ i, decodeWord w = .ok i) ↔ legalWord w = true

/-- The rows of the opcode table are pairwise disjoint, so at most one matches a word (R76). -/
def Obligations.AtMostOneTableRowMatchesAWord : Prop :=
  opcodeTable.length = 21 ∧ ∀ w : Word, (opcodeTable.filter (fun r => r.matchesWord w)).length ≤ 1

/-! ## Reset and the invariant -/

/-- R185: the `rst` event, from any state, under any parameters. -/
def Obligations.ResetEventSetsEveryElement : Prop :=
  ∀ (s : State) (rest : List PortEvent), s.pending = .rst :: rest →
    ∃ t, step s = .next t ∧
      (∀ x, t.readV x = 0x00) ∧ t.i = 0x0000 ∧ t.stack = [] ∧ (∀ a, t.readByte a = 0x00) ∧ t.pc = 0x200 ∧
      t.fb.length = t.cfg.cells ∧ (∀ row col, t.pixel row col = false) ∧
      t.runState = .idle ∧ t.errKind = .none ∧ t.errAddr = 0x000 ∧ t.errOpcode = 0x0000

/-- `rst` leaves the parameters (R40) and, by the model's choice (notes/assumptions/5.md, 6.md), the ports as they are. -/
def Obligations.ResetEventKeepsParametersAndPorts : Prop :=
  ∀ (s : State) (rest : List PortEvent), s.pending = .rst :: rest →
    ∃ t, step s = .next t ∧ t.cfg = s.cfg ∧ t.pending = rest ∧ t.sinkOpen = s.sinkOpen ∧ t.fbUpdates = s.fbUpdates ∧
      t.lastFrame = s.lastFrame

/-- The state the model starts in holds the reset values of R42 and R37, under any parameters. -/
def Obligations.StartStateHoldsTheResetValues : Prop :=
  State.reset = State.resetWith Config.recommended ∧
  ∀ c : Config,
    (∀ x, (State.resetWith c).readV x = 0x00) ∧ (State.resetWith c).i = 0x0000 ∧ (State.resetWith c).stack = [] ∧
    (∀ a, (State.resetWith c).readByte a = 0x00) ∧ (State.resetWith c).pc = 0x200 ∧
    (State.resetWith c).fb.length = c.displayW * c.displayH ∧ (∀ row col, (State.resetWith c).pixel row col = false) ∧
    (State.resetWith c).runState = .idle ∧ (State.resetWith c).errKind = .none ∧ (State.resetWith c).errAddr = 0x000 ∧
    (State.resetWith c).errOpcode = 0x0000

/-- The invariant holds right after reset, under any parameters. -/
def Obligations.ResetMeetsTheInvariant : Prop :=
  State.reset.Inv ∧ ∀ c : Config, (State.resetWith c).Inv

/-- Every step keeps the invariant: canonical memory, I[15:12] = 0 (R31), the framebuffer's shape (R44), the stack bound
(R33), and a status record that fits the run state (R37 to R39, R165, R166). -/
def Obligations.EveryStepKeepsTheInvariant : Prop :=
  ∀ s t : State, s.Inv → step s = .next t → t.Inv

/-! ## The cycle -/

/-- R90, R91: two bytes at PC and PC + 1, big-endian, PC advanced by 2, all wrapping, and nothing else changed. -/
def Obligations.FetchReadsTwoBytesBigEndian : Prop :=
  ∀ s : State,
    s.fetch.1 = s.readByte s.pc ++ s.readByte (s.pc + 1) ∧ s.fetch.2 = { s with pc := s.pc + 2 } ∧
    (s.pc = 0xFFF → s.fetch.1 = s.readByte 0xFFF ++ s.readByte 0x000 ∧ s.fetch.2.pc = 0x001) ∧
    (s.pc = 0xFFE → s.fetch.1 = s.readByte 0xFFE ++ s.readByte 0xFFF ∧ s.fetch.2.pc = 0x000)

/-- A cycle whose word decodes to `i` is exec of `i` past the word, then the present step unless a fatal condition was
raised (R87, R94, R95, R96, R103). That a step with nothing pending is a cycle is the model's (notes/assumptions/4.md). -/
def Obligations.StepRunsTheDecodedInstruction : Prop :=
  ∀ (s : State) (rest : List PortEvent) (i : Instr), s.takesCycle rest → decodeWord s.wordAtPC = .ok i →
    step s =
      match exec i (s.atExecute rest) with
      | .next t =>
        .next (if t.runState = .faulted then t else { t with fbUpdates := t.fbUpdates + 1, lastFrame := some t.fb })
      | .fault r => .fault r
      | .refused r => .refused r

/-- R169 (R92): an illegal word ends the cycle with DecodeError(A, w). -/
def Obligations.IllegalWordRaisesDecodeError : Prop :=
  ∀ (s : State) (rest : List PortEvent) (e : DecodeReject), s.takesCycle rest → decodeWord s.wordAtPC = .error e →
    step s = .next { s with
      pc := s.pc + 2, pending := rest, runState := .faulted, errKind := .decodeError, errAddr := s.pc,
      errOpcode := s.readByte s.pc ++ s.readByte (s.pc + 1) }

/-- R168, R96: a fatal cycle changes PC and the status record and nothing else, and presents no frame. -/
def Obligations.FatalCyclesArePrecise : Prop :=
  ∀ (s t : State) (rest : List PortEvent), s.takesCycle rest → step s = .next t → t.runState = .faulted →
    (t.errKind = .decodeError ∨ t.errKind = .stackUnderflow ∨ t.errKind = .stackOverflow) ∧
    t = { s with
      pc := s.pc + 2, pending := rest, runState := .faulted, errKind := t.errKind, errAddr := s.pc,
      errOpcode := s.readByte s.pc ++ s.readByte (s.pc + 1) }

/-- The three cases in which a cycle raises a fatal condition, and no fourth: an illegal word, a Return on an empty stack, a
Call on a full finite stack (R165, R166, R169 to R172). -/
def Obligations.CyclesFaultInExactlyThreeCases : Prop :=
  ∀ (s t : State) (rest : List PortEvent), s.takesCycle rest → step s = .next t →
    (t.runState = .faulted ∧ t.errKind = .decodeError ↔ legalWord s.wordAtPC = false) ∧
    (t.runState = .faulted ∧ t.errKind = .stackUnderflow ↔ s.wordAtPC = 0x00EE ∧ s.stack = []) ∧
    (t.runState = .faulted ∧ t.errKind = .stackOverflow ↔ s.wordAtPC.extractLsb' 12 4 = 0x2 ∧
      ∃ depth, s.cfg.stackDepth.limit = some depth ∧ s.stack.length = depth) ∧
    (t.runState = .faulted → t.errKind = .decodeError ∨ t.errKind = .stackUnderflow ∨ t.errKind = .stackOverflow)

/-- R39: the status record is written by the cycle that raises a fatal condition, with the kind whose cause that cycle has,
and by no other step but a `rst`. -/
def Obligations.StatusRecordIsWrittenByTheFaultingCycleOnly : Prop :=
  ∀ s t : State, (∀ rest, s.pending ≠ .rst :: rest) → step s = .next t →
    (s.runState ≠ .faulted → t.runState = .faulted →
      s.hasCause t.errKind ∧ t.errAddr = s.pc ∧ t.errOpcode = s.readByte s.pc ++ s.readByte (s.pc + 1)) ∧
    (s.runState = .faulted ∨ t.runState ≠ .faulted →
      t.errKind = s.errKind ∧ t.errAddr = s.errAddr ∧ t.errOpcode = s.errOpcode)

/-- R95: a cycle that raises nothing produces one `fb_update` that carries FB as execute left it, changed or not. -/
def Obligations.EverySuccessfulCyclePresentsTheFrame : Prop :=
  ∀ (s t : State) (rest : List PortEvent), s.takesCycle rest → step s = .next t → t.runState ≠ .faulted →
    t.fbUpdates = s.fbUpdates + 1 ∧ t.lastFrame = some t.fb ∧ t.runState = .running

/-- No step but a cycle that runs produces an `fb_update` (R95, R96, R97, R98). That a `rst` step, one of these, keeps the
record of presented frames is the model's choice (notes/assumptions/6.md). -/
def Obligations.NothingElsePresentsAFrame : Prop :=
  ∀ s t : State, (∀ rest, ¬ s.takesCycle rest) → step s = .next t →
    t.fbUpdates = s.fbUpdates ∧ t.lastFrame = s.lastFrame

/-- R27: PC at the end of a cycle, with P = addr12(A + 2), a cycle that ends in a fatal condition included (R168). -/
def Obligations.PCAfterEachInstruction : Prop :=
  ∀ (s t : State) (rest : List PortEvent), s.takesCycle rest → step s = .next t →
    (t.runState = .faulted → t.pc = s.pc + 2) ∧
    ∀ i : Instr, decodeWord s.wordAtPC = .ok i → t.runState ≠ .faulted →
      t.pc = match i with
        | .jump nnn => nnn
        | .call nnn => nnn
        | .ret => s.stack.headD 0
        | .skipIfEqual x nn => if s.readV x = nn then s.pc + 2 + 2 else s.pc + 2
        | .skipIfNotEqual x nn => if s.readV x ≠ nn then s.pc + 2 + 2 else s.pc + 2
        | .skipIfEqualXY x y => if s.readV x = s.readV y then s.pc + 2 + 2 else s.pc + 2
        | .skipIfNotEqualXY x y => if s.readV x ≠ s.readV y then s.pc + 2 + 2 else s.pc + 2
        | _ => s.pc + 2

/-- Every execute and every step answers a next state. Every instruction has a rule (R94) and no path builds an out-of-range
Address (R166); that a fatal condition is a next state, and not a fault, is the model's reading of R167 and R168
(notes/assumptions/7.md). -/
def Obligations.ExecAndStepAlwaysAnswerNext : Prop :=
  (∀ (i : Instr) (s : State), ∃ t, exec i s = .next t) ∧ ∀ s : State, ∃ t, step s = .next t

/-! ## The ports and the run state -/

/-- R97: a closed sink stops the run before the fetch. -/
def Obligations.ClosedSinkStopsTheRun : Prop :=
  ∀ (s : State) (rest : List PortEvent), s.grantsCycle rest → s.runState = .running → s.sinkOpen = false →
    step s = .next { s with runState := .stopped, pending := rest } ∧ (s.Inv → s.errKind = .none)

/-- R89: `start` and `cycle_req` by run state. -/
def Obligations.StartAndCycleRequestByRunState : Prop :=
  (∀ c : Config, (State.resetWith c).runState = .idle) ∧
  (∀ (s : State) (rest : List PortEvent), s.pending = .start :: rest →
    (s.runState = .idle → step s = .next { s with runState := .running, pending := rest } ∧ (s.Inv → s.pc = 0x200)) ∧
    (s.runState ≠ .idle → step s = .next { s with pending := rest })) ∧
  (∀ (s : State) (rest : List PortEvent), s.grantsCycle rest → s.runState ≠ .running →
    step s = .next { s with pending := rest })

/-- R101: the loader port writes one byte in IDLE and is ignored otherwise. That M is in canonical form is the invariant's
first clause, which every step keeps. -/
def Obligations.LoaderPortWritesInIdleOnly : Prop :=
  ∀ (s : State) (rest : List PortEvent) (a : Addr) (b : Byte), s.pending = .load a b :: rest → Memory.wf s.mem = true →
    (s.runState = .idle → ∃ t, step s = .next t ∧
      t.readByte a = b ∧ (∀ a', a' ≠ a → t.readByte a' = s.readByte a') ∧
      t = { s with mem := t.mem, pending := rest }) ∧
    (s.runState ≠ .idle → step s = .next { s with pending := rest })

/-- What the environment does between cycles without `rst`, `ld_we`, `start` or `cycle_req`: a new level of `sink_open`, or an
idle interval, in which "nothing in the block changes" (R86, R98). -/
def Obligations.SinkLevelAndIdleChangeNothingElse : Prop :=
  ∀ (s : State) (rest : List PortEvent),
    (∀ b, s.pending = .sink b :: rest → step s = .next { s with sinkOpen := b, pending := rest }) ∧
    (s.pending = .idle :: rest → step s = .next { s with pending := rest })

/-- While RUNNING, M is constant: nothing but `rst` changes a byte (R47, R50, R57, R193). -/
def Obligations.MemoryIsConstantWhileRunning : Prop :=
  ∀ s t : State, s.runState = .running → (∀ rest, s.pending ≠ .rst :: rest) → step s = .next t →
    ∀ a, t.readByte a = s.readByte a

/-- R38: the transitions of RUN_STATE, and what ends IDLE, RUNNING, STOPPED and FAULTED. -/
def Obligations.RunStateTransitions : Prop :=
  ∀ s t : State, step s = .next t →
    ((∃ rest, s.pending = .rst :: rest) → t.runState = .idle) ∧
    ((∀ rest, s.pending ≠ .rst :: rest) →
      (s.runState = .idle → t.runState = .idle ∨ t.runState = .running ∧ ∃ rest, s.pending = .start :: rest) ∧
      (s.runState = .running → t.runState = .running ∨
        t.runState = .stopped ∧ s.sinkOpen = false ∨ t.runState = .faulted ∧ s.sinkOpen = true) ∧
      (s.runState = .stopped → t.runState = .stopped) ∧
      (s.runState = .faulted → t.runState = .faulted))

/-- A jump to itself keeps running cycles, each presenting a frame, and never ends the run (R102, R107). That each of the
`k` steps, with nothing pending, is a granted cycle is the model's choice (notes/assumptions/4.md), as R195 assumes it of the
environment. -/
def Obligations.SelfJumpKeepsRunningAndPresenting : Prop :=
  ∀ (k : Nat) (s : State), s.takesCycle [] → s.pending = [] → s.wordAtPC = 0x1#4 ++ s.pc →
    s.runsSafely k ∧
    ∃ t : State, Host.Core.run Sys2Proof.core k s = .next t ∧
      t = { s with fbUpdates := s.fbUpdates + k, lastFrame := if k = 0 then s.lastFrame else some s.fb }

/-- FAULTED is sticky: over any number of steps in which no `rst` comes, all of the spec's state keeps its values
(R167, R174, R184). -/
def Obligations.FaultedIsStickyWithoutReset : Prop :=
  ∀ (k : Nat) (s : State), s.runState = .faulted → .rst ∉ s.pending.take k →
    ∃ t : State, Host.Core.run Sys2Proof.core k s = .next t ∧
      t = { s with pending := s.pending.drop k, sinkOpen := t.sinkOpen }

/-- STOPPED is sticky in the same way: it is left only by reset and keeps all state until then (R38, R184). -/
def Obligations.StoppedKeepsAllStateUntilReset : Prop :=
  ∀ (k : Nat) (s : State), s.runState = .stopped → .rst ∉ s.pending.take k →
    ∃ t : State, Host.Core.run Sys2Proof.core k s = .next t ∧
      t = { s with pending := s.pending.drop k, sinkOpen := t.sinkOpen }

/-- The boot order of R188 loads the image byte for byte and leaves everything else at its reset value (R50, R51, R185). That
the image comes as `load` events, one input a step, and that `rst` leaves the events still pending, are the model's choices
(notes/assumptions/12.md, 9.md, 5.md). -/
def Obligations.BootLoadsTheImage : Prop :=
  ∀ (s : State) (image : List Byte) (rest : List PortEvent), imageFits image = true →
    s.pending = bootEvents image ++ rest →
    ∃ t : State, Host.Core.run Sys2Proof.core (image.length + 2) s = .next t ∧
      (∀ k, k < image.length → t.readByte (BitVec.ofNat 12 (0x200 + k)) = image.getD k 0) ∧
      (∀ a : Addr, a.toNat < 0x200 ∨ 0x200 + image.length ≤ a.toNat → t.readByte a = 0x00) ∧
      t.runState = .running ∧ t.pc = 0x200 ∧ (∀ x, t.readV x = 0x00) ∧ t.i = 0x0000 ∧ t.stack = [] ∧
      t.fb = List.replicate s.cfg.cells false ∧ t.errKind = .none ∧ t.errAddr = 0x000 ∧ t.errOpcode = 0x0000 ∧
      t.cfg = s.cfg ∧ t.pending = rest

/-- R189: an empty image ends in DecodeError(0x200, 0x0000) at the first cycle. -/
def Obligations.EmptyImageRaisesDecodeError : Prop :=
  ∀ s : State, s.pending = bootEvents [] → s.sinkOpen = true →
    ∃ t : State, Host.Core.run Sys2Proof.core 3 s = .next t ∧
      t.runState = .faulted ∧ t.errKind = .decodeError ∧ t.errAddr = 0x200 ∧ t.errOpcode = 0x0000

/-- The codes of RUN_STATE and ERR_KIND (R37, R165). -/
def Obligations.StatusRecordCodes : Prop :=
  RunState.code .idle = 0 ∧ RunState.code .running = 1 ∧ RunState.code .stopped = 2 ∧ RunState.code .faulted = 3 ∧
  ErrKind.code .none = 0 ∧ ErrKind.code .decodeError = 1 ∧ ErrKind.code .stackUnderflow = 2 ∧
  ErrKind.code .addressRangeError = 3 ∧ ErrKind.code .stackOverflow = 4

/-! ## Control transfer -/

/-- Return pops S into PC and changes nothing else, or raises StackUnderflow when S is empty (R105). That exec records PC - 2
as the fetch address A is the model's reading of R26 (notes/assumptions/10.md). -/
def Obligations.ReturnPopsIntoPCOrUnderflows : Prop :=
  (∀ (s : State) (top : Addr) (rest : List Addr), s.stack = top :: rest →
    ∃ t, exec .ret s = .next t ∧ t.pc = top ∧ t.stack = rest ∧ s.changesOnly { pc := true, stack := true } t) ∧
  (∀ s : State, s.stack = [] →
    exec .ret s = .next { s with
      runState := .faulted, errKind := .stackUnderflow, errAddr := s.pc - 2, errOpcode := 0x00EE })

/-- R106, R170: the cycle of a Return on an empty stack raises StackUnderflow(A, 0x00EE). -/
def Obligations.ReturnOnEmptyStackRaisesUnderflow : Prop :=
  ∀ (s : State) (rest : List PortEvent), s.takesCycle rest → s.wordAtPC = 0x00EE → s.stack = [] →
    step s = .next { s with
      pc := s.pc + 2, pending := rest, runState := .faulted, errKind := .stackUnderflow, errAddr := s.pc,
      errOpcode := 0x00EE }

/-- R107: Jump. -/
def Obligations.JumpSetsPC : Prop :=
  ∀ (nnn : Addr) (s : State), ∃ t, exec (.jump nnn) s = .next t ∧ t.pc = nnn ∧ s.changesOnly { pc := true } t

/-- Call pushes PC and jumps, or raises StackOverflow when a finite stack is full (R108). That exec records PC - 2 as the
fetch address A, and the instruction's encoding as w, is the model's reading of R26 (notes/assumptions/10.md). -/
def Obligations.CallPushesAndJumpsOrOverflows : Prop :=
  ∀ (nnn : Addr) (s : State),
    ((∀ depth, s.cfg.stackDepth.limit = some depth → s.stack.length ≠ depth) →
      ∃ t, exec (.call nnn) s = .next t ∧ t.stack = s.pc :: s.stack ∧ t.pc = nnn ∧
        s.changesOnly { pc := true, stack := true } t) ∧
    ((∃ depth, s.cfg.stackDepth.limit = some depth ∧ s.stack.length = depth) →
      exec (.call nnn) s = .next { s with
        runState := .faulted, errKind := .stackOverflow, errAddr := s.pc - 2, errOpcode := 0x2#4 ++ nnn })

/-- R171: the cycle of a Call on a full finite stack raises StackOverflow(A, w). -/
def Obligations.CallOnFullStackRaisesOverflow : Prop :=
  ∀ (s : State) (rest : List PortEvent) (nnn : Addr) (depth : Nat),
    s.takesCycle rest → s.wordAtPC = 0x2#4 ++ nnn → s.cfg.stackDepth.limit = some depth → s.stack.length = depth →
    step s = .next { s with
      pc := s.pc + 2, pending := rest, runState := .faulted, errKind := .stackOverflow, errAddr := s.pc,
      errOpcode := 0x2#4 ++ nnn }

/-- R109: a Return that finds S as the Call left it goes to the address after the Call and leaves S as the Call found it. -/
def Obligations.CallThenReturnRoundTrip : Prop :=
  ∀ (s t u : State) (restS restU : List PortEvent) (nnn : Addr),
    s.takesCycle restS → s.wordAtPC = 0x2#4 ++ nnn → step s = .next t → t.runState ≠ .faulted →
    u.takesCycle restU → u.wordAtPC = 0x00EE → u.stack = t.stack →
    t.stack = (s.pc + 2) :: s.stack ∧ ∃ v, step u = .next v ∧ v.pc = s.pc + 2 ∧ v.stack = s.stack

/-- R111 to R114: the four skips, each on both outcomes of its condition. -/
def Obligations.SkipsPassTwoBytesWhenTheConditionHolds : Prop :=
  (∀ (x : Reg) (nn : Byte) (s : State), ∃ t, exec (.skipIfEqual x nn) s = .next t ∧
    t.pc = (if s.readV x = nn then s.pc + 2 else s.pc) ∧ s.changesOnly { pc := true } t) ∧
  (∀ (x : Reg) (nn : Byte) (s : State), ∃ t, exec (.skipIfNotEqual x nn) s = .next t ∧
    t.pc = (if s.readV x ≠ nn then s.pc + 2 else s.pc) ∧ s.changesOnly { pc := true } t) ∧
  (∀ (x y : Reg) (s : State), ∃ t, exec (.skipIfEqualXY x y) s = .next t ∧
    t.pc = (if s.readV x = s.readV y then s.pc + 2 else s.pc) ∧ s.changesOnly { pc := true } t) ∧
  (∀ (x y : Reg) (s : State), ∃ t, exec (.skipIfNotEqualXY x y) s = .next t ∧
    t.pc = (if s.readV x ≠ s.readV y then s.pc + 2 else s.pc) ∧ s.changesOnly { pc := true } t)

/-! ## Registers and arithmetic -/

/-- R122, R123: the immediate forms. VF is written only when x names it. -/
def Obligations.ImmediateFormsWriteVX : Prop :=
  (∀ (x : Reg) (nn : Byte) (s : State), ∃ t, exec (.setVX x nn) s = .next t ∧
    t.readV x = nn ∧ s.changesOnly { regs := [x] } t) ∧
  (∀ (x : Reg) (nn : Byte) (s : State), ∃ t, exec (.addVX x nn) s = .next t ∧
    (t.readV x).toNat = ((s.readV x).toNat + nn.toNat) % 256 ∧ s.changesOnly { regs := [x] } t)

/-- R124 to R127: move and bitwise forms, no flag. -/
def Obligations.MoveAndBitwiseFormsWriteVX : Prop :=
  ∀ (x y : Reg) (s : State),
    (∃ t, exec (.setVXToVY x y) s = .next t ∧ t.readV x = s.readV y ∧ s.changesOnly { regs := [x] } t) ∧
    (∃ t, exec (.orVXVY x y) s = .next t ∧ t.readV x = s.readV x ||| s.readV y ∧ s.changesOnly { regs := [x] } t) ∧
    (∃ t, exec (.andVXVY x y) s = .next t ∧ t.readV x = s.readV x &&& s.readV y ∧ s.changesOnly { regs := [x] } t) ∧
    (∃ t, exec (.xorVXVY x y) s = .next t ∧ t.readV x = s.readV x ^^^ s.readV y ∧ s.changesOnly { regs := [x] } t)

/-- R128: the sum modulo 256, and VF = carry; with x = 0xF only the carry is left. -/
def Obligations.AddVYToVXWritesSumAndCarry : Prop :=
  ∀ (x y : Reg) (s : State), ∃ t, exec (.addVYToVX x y) s = .next t ∧
    (x ≠ 0xF → (t.readV x).toNat = ((s.readV x).toNat + (s.readV y).toNat) % 256) ∧
    t.readV 0xF = (if (s.readV x).toNat + (s.readV y).toNat > 0xFF then 0x01 else 0x00) ∧
    s.changesOnly { regs := [x, 0xF] } t

/-- R129, R130: the two subtractions, and VF = no borrow; with x = 0xF only the flag is left. -/
def Obligations.SubtractionsWriteDifferenceAndNoBorrow : Prop :=
  ∀ (x y : Reg) (s : State),
    (∃ t, exec (.subVYFromVX x y) s = .next t ∧
      (x ≠ 0xF → (t.readV x).toNat = ((s.readV x).toNat + 256 - (s.readV y).toNat) % 256) ∧
      t.readV 0xF = (if (s.readV x).toNat ≥ (s.readV y).toNat then 0x01 else 0x00) ∧
      s.changesOnly { regs := [x, 0xF] } t) ∧
    (∃ t, exec (.subVXFromVY x y) s = .next t ∧
      (x ≠ 0xF → (t.readV x).toNat = ((s.readV y).toNat + 256 - (s.readV x).toNat) % 256) ∧
      t.readV 0xF = (if (s.readV y).toNat ≥ (s.readV x).toNat then 0x01 else 0x00) ∧
      s.changesOnly { regs := [x, 0xF] } t)

/-- R131, R132: the shifts of the register COMPAT_MODE selects, and VF = the bit shifted out. -/
def Obligations.ShiftsFollowTheCompatibilityMode : Prop :=
  ∀ (x y : Reg) (s : State) (src : Byte),
    (s.cfg.compatMode = .vySource → src = s.readV y) → (s.cfg.compatMode = .vxInPlace → src = s.readV x) →
    (∃ t, exec (.shiftRight x y) s = .next t ∧
      (x ≠ 0xF → (t.readV x).toNat = src.toNat / 2) ∧ (t.readV 0xF).toNat = src.toNat % 2 ∧
      s.changesOnly { regs := [x, 0xF] } t) ∧
    (∃ t, exec (.shiftLeft x y) s = .next t ∧
      (x ≠ 0xF → (t.readV x).toNat = src.toNat * 2 % 256) ∧ (t.readV 0xF).toNat = src.toNat / 128 ∧
      s.changesOnly { regs := [x, 0xF] } t)

/-- The laws of R133: result and flag together are the exact sum or difference. -/
def Obligations.ResultAndFlagAreTheExactArithmetic : Prop :=
  ∀ (x y : Reg) (s t : State), x ≠ 0xF →
    (exec (.addVYToVX x y) s = .next t →
      (s.readV x).toNat + (s.readV y).toNat = (t.readV x).toNat + 256 * (t.readV 0xF).toNat) ∧
    (exec (.subVYFromVX x y) s = .next t →
      ((s.readV x).toNat : Int) - (s.readV y).toNat = (t.readV x).toNat - 256 * (1 - ((t.readV 0xF).toNat : Int))) ∧
    (exec (.subVXFromVY x y) s = .next t →
      ((s.readV y).toNat : Int) - (s.readV x).toNat = (t.readV x).toNat - 256 * (1 - ((t.readV 0xF).toNat : Int)))

/-! ## The index register and the framebuffer -/

/-- R140: SetIRegister zero-extends nnn into I. -/
def Obligations.SetIRegisterZeroExtends : Prop :=
  ∀ (nnn : Addr) (s : State), ∃ t, exec (.setIRegister nnn) s = .next t ∧
    t.i = 0x0#4 ++ nnn ∧ s.changesOnly { index := true } t

/-- R141: ClearScreen, for every size and from every framebuffer. -/
def Obligations.ClearScreenClearsEveryCell : Prop :=
  ∀ s : State, ∃ t, exec .clearScreen s = .next t ∧
    (∀ row col, row < s.cfg.displayH → col < s.cfg.displayW → t.pixel row col = false) ∧
    t.fb.length = s.cfg.cells ∧ s.changesOnly { fb := true } t

/-- Draw with one starting column for all rows, which is every Draw but x = 0xF under `REREAD`: each cell becomes
old XOR sprite bit, clipped at the right and bottom edges, and VF says whether a set pixel met a set bit
(R143 to R150, R152). -/
def Obligations.DrawComposesTheClippedSprite : Prop :=
  ∀ (x y : Reg) (n : BitVec 4) (s : State),
    s.fb.length = s.cfg.cells → (s.cfg.drawColumnSource = .latched ∨ x ≠ 0xF) →
    ∃ t, exec (.draw x y n) s = .next t ∧
      (∀ row col, row < s.cfg.displayH → col < s.cfg.displayW →
        t.pixel row col = (s.pixel row col ^^
          s.spriteBitAt n.toNat ((s.readV y).toNat % s.cfg.displayH)
            (fun _ => (s.readV x).toNat % s.cfg.displayW) row col)) ∧
      ((∃ row, row < s.cfg.displayH ∧
          s.rowCollides n.toNat ((s.readV y).toNat % s.cfg.displayH) (fun _ => (s.readV x).toNat % s.cfg.displayW) row) →
        t.readV 0xF = 0x01) ∧
      ((¬ ∃ row, row < s.cfg.displayH ∧
          s.rowCollides n.toNat ((s.readV y).toNat % s.cfg.displayH) (fun _ => (s.readV x).toNat % s.cfg.displayW) row) →
        t.readV 0xF = 0x00) ∧
      t.fb.length = s.fb.length ∧ s.changesOnly { regs := [0xF], fb := true } t

/-- Draw with x = 0xF under `REREAD`: each row starts at VF mod W as the rows before it left VF, which is 0 until one of
them collided and 1 mod W from then on (R145, R147). -/
def Obligations.DrawRereadStartsRowsAtTheCollisionFlag : Prop :=
  ∀ (y : Reg) (n : BitVec 4) (s : State),
    s.fb.length = s.cfg.cells → s.cfg.drawColumnSource = .reread →
    ∃ (t : State) (cols : Nat → Nat), exec (.draw 0xF y n) s = .next t ∧
      (∀ r, (∃ q, q < r ∧ (s.readV y).toNat % s.cfg.displayH + q < s.cfg.displayH ∧
          s.rowCollides n.toNat ((s.readV y).toNat % s.cfg.displayH) cols ((s.readV y).toNat % s.cfg.displayH + q)) →
        cols r = 1 % s.cfg.displayW) ∧
      (∀ r, (¬ ∃ q, q < r ∧ (s.readV y).toNat % s.cfg.displayH + q < s.cfg.displayH ∧
          s.rowCollides n.toNat ((s.readV y).toNat % s.cfg.displayH) cols ((s.readV y).toNat % s.cfg.displayH + q)) →
        cols r = 0) ∧
      (∀ row col, row < s.cfg.displayH → col < s.cfg.displayW →
        t.pixel row col = (s.pixel row col ^^
          s.spriteBitAt n.toNat ((s.readV y).toNat % s.cfg.displayH) cols row col)) ∧
      ((∃ row, row < s.cfg.displayH ∧ s.rowCollides n.toNat ((s.readV y).toNat % s.cfg.displayH) cols row) →
        t.readV 0xF = 0x01) ∧
      ((¬ ∃ row, row < s.cfg.displayH ∧ s.rowCollides n.toNat ((s.readV y).toNat % s.cfg.displayH) cols row) →
        t.readV 0xF = 0x00) ∧
      t.fb.length = s.fb.length ∧ s.changesOnly { regs := [0xF], fb := true } t

/-- R153: from every state, under every setting, Draw completes and writes only FB and VF. -/
def Obligations.DrawWritesOnlyFramebufferAndVF : Prop :=
  ∀ (x y : Reg) (n : BitVec 4) (s : State), ∃ t, exec (.draw x y n) s = .next t ∧
    t.fb.length = s.fb.length ∧ s.changesOnly { regs := [0xF], fb := true } t

/-- R151: n = 0 draws nothing and clears VF. -/
def Obligations.DrawOfZeroRowsClearsVFOnly : Prop :=
  ∀ (x y : Reg) (s : State), ∃ t, exec (.draw x y 0) s = .next t ∧
    t.readV 0xF = 0x00 ∧ s.changesOnly { regs := [0xF] } t

/-- Drawing a sprite twice at one place restores the framebuffer, and the second Draw collides exactly when the first one
turned a pixel on or off at all (R148, R149; R154 examples 1 and 2 are instances). -/
def Obligations.DrawingTwiceRestoresTheFramebuffer : Prop :=
  ∀ (x y : Reg) (n : BitVec 4) (s t u : State),
    s.fb.length = s.cfg.cells → x ≠ 0xF → y ≠ 0xF →
    exec (.draw x y n) s = .next t → exec (.draw x y n) t = .next u →
    u.fb = s.fb ∧
    ((∀ row col, row < s.cfg.displayH → col < s.cfg.displayW → s.pixel row col = false) →
      t.readV 0xF = 0x00 ∧ (t.fb = s.fb → u.readV 0xF = 0x00) ∧ (t.fb ≠ s.fb → u.readV 0xF = 0x01))

/-- DISPLAY_W and DISPLAY_H are powers of two, so Draw's starting column and row by mod are those by mask (R143). -/
def Obligations.StartCoordinatesByModAreThoseByMask : Prop :=
  ∀ (s : State) (x : Reg),
    s.columnOf x = (s.readV x).toNat &&& (s.cfg.displayW - 1) ∧ s.rowOf x = (s.readV x).toNat &&& (s.cfg.displayH - 1)

/-! ## Whole-machine rules -/

/-- Every instruction writes only the stores the spec lets it write (R22, R24, R27, R31, R32, R35, R47, R63). -/
def Obligations.EveryInstructionWritesOnlyItsStores : Prop :=
  ∀ (i : Instr) (s : State), ∃ t, exec i s = .next t ∧ s.changesOnly (writesOf i) t

/-- No step changes the parameters (R40). -/
def Obligations.ParametersAreConstant : Prop :=
  ∀ s t : State, step s = .next t → t.cfg = s.cfg

/-- COMPAT_MODE "affects only ShiftRight (8XY6) and ShiftLeft (8XYE)" (R12). -/
def Obligations.CompatModeAffectsOnlyTheShifts : Prop :=
  ∀ (i : Instr) (s : State) (m : CompatMode),
    (∀ x y, i ≠ .shiftRight x y) → (∀ x y, i ≠ .shiftLeft x y) →
    ∃ t, exec i s = .next t ∧
      exec i { s with cfg := { s.cfg with compatMode := m } } = .next { t with cfg := { t.cfg with compatMode := m } }

/-- DRAW_COLUMN_SOURCE changes nothing but a Draw with x = 0xF (R11, R147). -/
def Obligations.DrawColumnSourceAffectsOnlyDrawFromVF : Prop :=
  ∀ (i : Instr) (s : State) (d : DrawColumnSource),
    (∀ y n, i ≠ .draw 0xF y n) →
    ∃ t, exec i s = .next t ∧
      exec i { s with cfg := { s.cfg with drawColumnSource := d } } =
        .next { t with cfg := { t.cfg with drawColumnSource := d } }

/-- "The only information a program gets from FB is the collision flag of Draw" (R35): two executes that differ in the
framebuffer alone differ afterwards in the framebuffer alone, but for VF after a Draw. -/
def Obligations.FramebufferIsSeenOnlyThroughTheCollisionFlag : Prop :=
  ∀ (i : Instr) (s : State) (f : List Bool), ∃ t u,
    exec i s = .next t ∧ exec i { s with fb := f } = .next u ∧
    (∀ r, r ≠ 0xF ∨ (∀ x y n, i ≠ .draw x y n) → u.readV r = t.readV r) ∧
    u = { t with v := u.v, fb := u.fb }
end

