-- ==== Sys2Proof/Laws/Decode.lean ====
section
/-! SUPPORT. The fields of a word put together from nibbles, bytes and addresses (R66), and the word put together from its
fields. -/

namespace Sys2Proof

/-! ### The fields of 0xFNNN -/

@[simp] theorem family_nnn (f : BitVec 4) (nnn : Addr) : family (f ++ nnn) = f := by
  unfold family; ext i hi; simp; grind

@[simp] theorem fieldNNN_nnn (f : BitVec 4) (nnn : Addr) : fieldNNN (f ++ nnn) = nnn := by
  unfold fieldNNN; ext i hi; simp; grind

/-! ### The fields of 0xFXNN -/

@[simp] theorem family_xnn (f : BitVec 4) (x : Reg) (nn : Byte) : family (f ++ x ++ nn) = f := by
  unfold family; ext i hi; simp; grind

@[simp] theorem fieldX_xnn (f : BitVec 4) (x : Reg) (nn : Byte) : fieldX (f ++ x ++ nn) = x := by
  unfold fieldX; ext i hi; simp; grind

@[simp] theorem fieldNN_xnn (f : BitVec 4) (x : Reg) (nn : Byte) : fieldNN (f ++ x ++ nn) = nn := by
  unfold fieldNN; ext i hi; simp; grind

/-! ### The fields of 0xFXYN -/

@[simp] theorem family_xyn (f : BitVec 4) (x y : Reg) (n : BitVec 4) : family (f ++ x ++ y ++ n) = f := by
  unfold family; ext i hi; simp; grind

@[simp] theorem fieldX_xyn (f : BitVec 4) (x y : Reg) (n : BitVec 4) : fieldX (f ++ x ++ y ++ n) = x := by
  unfold fieldX; ext i hi; simp; grind

@[simp] theorem fieldY_xyn (f : BitVec 4) (x y : Reg) (n : BitVec 4) : fieldY (f ++ x ++ y ++ n) = y := by
  unfold fieldY; ext i hi; simp; grind

@[simp] theorem fieldN_xyn (f : BitVec 4) (x y : Reg) (n : BitVec 4) : fieldN (f ++ x ++ y ++ n) = n := by
  unfold fieldN; ext i hi; simp; grind

/-! ### A word from its fields -/

theorem nnn_of_fields (w : Word) : family w ++ fieldNNN w = w := by
  unfold family fieldNNN; ext i hi; simp; grind

theorem xnn_of_fields (w : Word) : family w ++ fieldX w ++ fieldNN w = w := by
  unfold family fieldX fieldNN; ext i hi; simp; grind

theorem xyn_of_fields (w : Word) : family w ++ fieldX w ++ fieldY w ++ fieldN w = w := by
  unfold family fieldX fieldY fieldN; ext i hi; simp; grind

/-! ### Words nibble by nibble, as the rows of the opcode table compare them -/

theorem and_nibbles (f x y n f' x' y' n' : BitVec 4) :
    (f ++ x ++ y ++ n) &&& (f' ++ x' ++ y' ++ n') = (f &&& f') ++ (x &&& x') ++ (y &&& y') ++ (n &&& n') := by
  ext i hi; simp; grind

theorem nibbles_inj {f x y n f' x' y' n' : BitVec 4} :
    f ++ x ++ y ++ n = f' ++ x' ++ y' ++ n' ↔ f = f' ∧ x = x' ∧ y = y' ∧ n = n' := by
  constructor
  · intro h
    have h1 := congrArg family h
    have h2 := congrArg fieldX h
    have h3 := congrArg fieldY h
    have h4 := congrArg fieldN h
    simp only [family_xyn, fieldX_xyn, fieldY_xyn, fieldN_xyn] at h1 h2 h3 h4
    exact ⟨h1, h2, h3, h4⟩
  · rintro ⟨rfl, rfl, rfl, rfl⟩; rfl

theorem matchesWord_nibbles (r : OpcodeRow) (f x y n : BitVec 4) : r.matchesWord (f ++ x ++ y ++ n) =
    (decide (f &&& family r.mask = family r.pattern) && decide (x &&& fieldX r.mask = fieldX r.pattern) &&
      decide (y &&& fieldY r.mask = fieldY r.pattern) && decide (n &&& fieldN r.mask = fieldN r.pattern)) := by
  have hmask := xyn_of_fields r.mask
  have hpat := xyn_of_fields r.pattern
  rw [Bool.eq_iff_iff, OpcodeRow.matchesWord, beq_iff_eq]
  conv_lhs => rw [← hmask, ← hpat, and_nibbles, nibbles_inj]
  simp only [Bool.and_eq_true, decide_eq_true_eq, and_assoc]

/-! ### A word and its two bytes -/

/-- The bytes of a word, put together big-endian, are the word (R48). -/
@[simp] theorem wordOfBytes_bytes (w : Word) : wordOfBytes (highByte w) (lowByte w) = w := by
  unfold wordOfBytes highByte lowByte; ext i hi; simp; grind

/-- A table word given all 16 bits is that word. -/
@[simp] theorem tableWord_sixteen (w : Word) : tableWord 16 w.toNat = w := by
  simp [tableWord, Nat.mod_eq_of_lt w.isLt]

end Sys2Proof
end

