-- ==== Sys2Proof/Laws/State.lean ====
section
/-! SUPPORT. One lemma per field per update of State, true by rfl, and what the accessors read after each update. -/

namespace Sys2Proof.Machine

/-- A framebuffer of false cells reads false at every index, inside its shape and out. -/
@[simp] theorem getD_replicate_false (n k : Nat) : (List.replicate n false).getD k false = false := by
  rw [List.getD_eq_getElem?_getD, List.getElem?_replicate]
  split <;> rfl

end Sys2Proof.Machine

namespace Sys2Proof.Machine.State

/-! ### writeByte -/

@[simp] theorem writeByte_v (s : State) (a : Addr) (b : Byte) : (s.writeByte a b).v = s.v := rfl
@[simp] theorem writeByte_pc (s : State) (a : Addr) (b : Byte) : (s.writeByte a b).pc = s.pc := rfl
@[simp] theorem writeByte_i (s : State) (a : Addr) (b : Byte) : (s.writeByte a b).i = s.i := rfl
@[simp] theorem writeByte_stack (s : State) (a : Addr) (b : Byte) : (s.writeByte a b).stack = s.stack := rfl
@[simp] theorem writeByte_mem (s : State) (a : Addr) (b : Byte) : (s.writeByte a b).mem = Memory.store s.mem a.toNat b := rfl
@[simp] theorem writeByte_fb (s : State) (a : Addr) (b : Byte) : (s.writeByte a b).fb = s.fb := rfl
@[simp] theorem writeByte_runState (s : State) (a : Addr) (b : Byte) : (s.writeByte a b).runState = s.runState := rfl
@[simp] theorem writeByte_errKind (s : State) (a : Addr) (b : Byte) : (s.writeByte a b).errKind = s.errKind := rfl
@[simp] theorem writeByte_errAddr (s : State) (a : Addr) (b : Byte) : (s.writeByte a b).errAddr = s.errAddr := rfl
@[simp] theorem writeByte_errOpcode (s : State) (a : Addr) (b : Byte) : (s.writeByte a b).errOpcode = s.errOpcode := rfl
@[simp] theorem writeByte_cfg (s : State) (a : Addr) (b : Byte) : (s.writeByte a b).cfg = s.cfg := rfl
@[simp] theorem writeByte_sinkOpen (s : State) (a : Addr) (b : Byte) : (s.writeByte a b).sinkOpen = s.sinkOpen := rfl
@[simp] theorem writeByte_pending (s : State) (a : Addr) (b : Byte) : (s.writeByte a b).pending = s.pending := rfl
@[simp] theorem writeByte_fbUpdates (s : State) (a : Addr) (b : Byte) : (s.writeByte a b).fbUpdates = s.fbUpdates := rfl
@[simp] theorem writeByte_lastFrame (s : State) (a : Addr) (b : Byte) : (s.writeByte a b).lastFrame = s.lastFrame := rfl

/-! ### writeV -/

@[simp] theorem writeV_v (s : State) (x : Reg) (b : Byte) : (s.writeV x b).v = s.v.set x.toNat b x.isLt := rfl
@[simp] theorem writeV_pc (s : State) (x : Reg) (b : Byte) : (s.writeV x b).pc = s.pc := rfl
@[simp] theorem writeV_i (s : State) (x : Reg) (b : Byte) : (s.writeV x b).i = s.i := rfl
@[simp] theorem writeV_stack (s : State) (x : Reg) (b : Byte) : (s.writeV x b).stack = s.stack := rfl
@[simp] theorem writeV_mem (s : State) (x : Reg) (b : Byte) : (s.writeV x b).mem = s.mem := rfl
@[simp] theorem writeV_fb (s : State) (x : Reg) (b : Byte) : (s.writeV x b).fb = s.fb := rfl
@[simp] theorem writeV_runState (s : State) (x : Reg) (b : Byte) : (s.writeV x b).runState = s.runState := rfl
@[simp] theorem writeV_errKind (s : State) (x : Reg) (b : Byte) : (s.writeV x b).errKind = s.errKind := rfl
@[simp] theorem writeV_errAddr (s : State) (x : Reg) (b : Byte) : (s.writeV x b).errAddr = s.errAddr := rfl
@[simp] theorem writeV_errOpcode (s : State) (x : Reg) (b : Byte) : (s.writeV x b).errOpcode = s.errOpcode := rfl
@[simp] theorem writeV_cfg (s : State) (x : Reg) (b : Byte) : (s.writeV x b).cfg = s.cfg := rfl
@[simp] theorem writeV_sinkOpen (s : State) (x : Reg) (b : Byte) : (s.writeV x b).sinkOpen = s.sinkOpen := rfl
@[simp] theorem writeV_pending (s : State) (x : Reg) (b : Byte) : (s.writeV x b).pending = s.pending := rfl
@[simp] theorem writeV_fbUpdates (s : State) (x : Reg) (b : Byte) : (s.writeV x b).fbUpdates = s.fbUpdates := rfl
@[simp] theorem writeV_lastFrame (s : State) (x : Reg) (b : Byte) : (s.writeV x b).lastFrame = s.lastFrame := rfl

/-! ### writePC -/

@[simp] theorem writePC_v (s : State) (a : Addr) : (s.writePC a).v = s.v := rfl
@[simp] theorem writePC_pc (s : State) (a : Addr) : (s.writePC a).pc = a := rfl
@[simp] theorem writePC_i (s : State) (a : Addr) : (s.writePC a).i = s.i := rfl
@[simp] theorem writePC_stack (s : State) (a : Addr) : (s.writePC a).stack = s.stack := rfl
@[simp] theorem writePC_mem (s : State) (a : Addr) : (s.writePC a).mem = s.mem := rfl
@[simp] theorem writePC_fb (s : State) (a : Addr) : (s.writePC a).fb = s.fb := rfl
@[simp] theorem writePC_runState (s : State) (a : Addr) : (s.writePC a).runState = s.runState := rfl
@[simp] theorem writePC_errKind (s : State) (a : Addr) : (s.writePC a).errKind = s.errKind := rfl
@[simp] theorem writePC_errAddr (s : State) (a : Addr) : (s.writePC a).errAddr = s.errAddr := rfl
@[simp] theorem writePC_errOpcode (s : State) (a : Addr) : (s.writePC a).errOpcode = s.errOpcode := rfl
@[simp] theorem writePC_cfg (s : State) (a : Addr) : (s.writePC a).cfg = s.cfg := rfl
@[simp] theorem writePC_sinkOpen (s : State) (a : Addr) : (s.writePC a).sinkOpen = s.sinkOpen := rfl
@[simp] theorem writePC_pending (s : State) (a : Addr) : (s.writePC a).pending = s.pending := rfl
@[simp] theorem writePC_fbUpdates (s : State) (a : Addr) : (s.writePC a).fbUpdates = s.fbUpdates := rfl
@[simp] theorem writePC_lastFrame (s : State) (a : Addr) : (s.writePC a).lastFrame = s.lastFrame := rfl

/-! ### writeI -/

@[simp] theorem writeI_v (s : State) (w : Word) : (s.writeI w).v = s.v := rfl
@[simp] theorem writeI_pc (s : State) (w : Word) : (s.writeI w).pc = s.pc := rfl
@[simp] theorem writeI_i (s : State) (w : Word) : (s.writeI w).i = w := rfl
@[simp] theorem writeI_stack (s : State) (w : Word) : (s.writeI w).stack = s.stack := rfl
@[simp] theorem writeI_mem (s : State) (w : Word) : (s.writeI w).mem = s.mem := rfl
@[simp] theorem writeI_fb (s : State) (w : Word) : (s.writeI w).fb = s.fb := rfl
@[simp] theorem writeI_runState (s : State) (w : Word) : (s.writeI w).runState = s.runState := rfl
@[simp] theorem writeI_errKind (s : State) (w : Word) : (s.writeI w).errKind = s.errKind := rfl
@[simp] theorem writeI_errAddr (s : State) (w : Word) : (s.writeI w).errAddr = s.errAddr := rfl
@[simp] theorem writeI_errOpcode (s : State) (w : Word) : (s.writeI w).errOpcode = s.errOpcode := rfl
@[simp] theorem writeI_cfg (s : State) (w : Word) : (s.writeI w).cfg = s.cfg := rfl
@[simp] theorem writeI_sinkOpen (s : State) (w : Word) : (s.writeI w).sinkOpen = s.sinkOpen := rfl
@[simp] theorem writeI_pending (s : State) (w : Word) : (s.writeI w).pending = s.pending := rfl
@[simp] theorem writeI_fbUpdates (s : State) (w : Word) : (s.writeI w).fbUpdates = s.fbUpdates := rfl
@[simp] theorem writeI_lastFrame (s : State) (w : Word) : (s.writeI w).lastFrame = s.lastFrame := rfl

/-! ### push -/

@[simp] theorem push_v (s : State) (a : Addr) : (s.push a).v = s.v := rfl
@[simp] theorem push_pc (s : State) (a : Addr) : (s.push a).pc = s.pc := rfl
@[simp] theorem push_i (s : State) (a : Addr) : (s.push a).i = s.i := rfl
@[simp] theorem push_stack (s : State) (a : Addr) : (s.push a).stack = a :: s.stack := rfl
@[simp] theorem push_mem (s : State) (a : Addr) : (s.push a).mem = s.mem := rfl
@[simp] theorem push_fb (s : State) (a : Addr) : (s.push a).fb = s.fb := rfl
@[simp] theorem push_runState (s : State) (a : Addr) : (s.push a).runState = s.runState := rfl
@[simp] theorem push_errKind (s : State) (a : Addr) : (s.push a).errKind = s.errKind := rfl
@[simp] theorem push_errAddr (s : State) (a : Addr) : (s.push a).errAddr = s.errAddr := rfl
@[simp] theorem push_errOpcode (s : State) (a : Addr) : (s.push a).errOpcode = s.errOpcode := rfl
@[simp] theorem push_cfg (s : State) (a : Addr) : (s.push a).cfg = s.cfg := rfl
@[simp] theorem push_sinkOpen (s : State) (a : Addr) : (s.push a).sinkOpen = s.sinkOpen := rfl
@[simp] theorem push_pending (s : State) (a : Addr) : (s.push a).pending = s.pending := rfl
@[simp] theorem push_fbUpdates (s : State) (a : Addr) : (s.push a).fbUpdates = s.fbUpdates := rfl
@[simp] theorem push_lastFrame (s : State) (a : Addr) : (s.push a).lastFrame = s.lastFrame := rfl

/-! ### withStack -/

@[simp] theorem withStack_v (s : State) (l : List Addr) : (s.withStack l).v = s.v := rfl
@[simp] theorem withStack_pc (s : State) (l : List Addr) : (s.withStack l).pc = s.pc := rfl
@[simp] theorem withStack_i (s : State) (l : List Addr) : (s.withStack l).i = s.i := rfl
@[simp] theorem withStack_stack (s : State) (l : List Addr) : (s.withStack l).stack = l := rfl
@[simp] theorem withStack_mem (s : State) (l : List Addr) : (s.withStack l).mem = s.mem := rfl
@[simp] theorem withStack_fb (s : State) (l : List Addr) : (s.withStack l).fb = s.fb := rfl
@[simp] theorem withStack_runState (s : State) (l : List Addr) : (s.withStack l).runState = s.runState := rfl
@[simp] theorem withStack_errKind (s : State) (l : List Addr) : (s.withStack l).errKind = s.errKind := rfl
@[simp] theorem withStack_errAddr (s : State) (l : List Addr) : (s.withStack l).errAddr = s.errAddr := rfl
@[simp] theorem withStack_errOpcode (s : State) (l : List Addr) : (s.withStack l).errOpcode = s.errOpcode := rfl
@[simp] theorem withStack_cfg (s : State) (l : List Addr) : (s.withStack l).cfg = s.cfg := rfl
@[simp] theorem withStack_sinkOpen (s : State) (l : List Addr) : (s.withStack l).sinkOpen = s.sinkOpen := rfl
@[simp] theorem withStack_pending (s : State) (l : List Addr) : (s.withStack l).pending = s.pending := rfl
@[simp] theorem withStack_fbUpdates (s : State) (l : List Addr) : (s.withStack l).fbUpdates = s.fbUpdates := rfl
@[simp] theorem withStack_lastFrame (s : State) (l : List Addr) : (s.withStack l).lastFrame = s.lastFrame := rfl

/-! ### writePixel -/

@[simp] theorem writePixel_v (s : State) (row col : Nat) (b : Bool) : (s.writePixel row col b).v = s.v := rfl
@[simp] theorem writePixel_pc (s : State) (row col : Nat) (b : Bool) : (s.writePixel row col b).pc = s.pc := rfl
@[simp] theorem writePixel_i (s : State) (row col : Nat) (b : Bool) : (s.writePixel row col b).i = s.i := rfl
@[simp] theorem writePixel_stack (s : State) (row col : Nat) (b : Bool) : (s.writePixel row col b).stack = s.stack := rfl
@[simp] theorem writePixel_mem (s : State) (row col : Nat) (b : Bool) : (s.writePixel row col b).mem = s.mem := rfl
@[simp] theorem writePixel_fb (s : State) (row col : Nat) (b : Bool) : (s.writePixel row col b).fb = s.fb.set (s.cellIndex row col) b := rfl
@[simp] theorem writePixel_runState (s : State) (row col : Nat) (b : Bool) : (s.writePixel row col b).runState = s.runState := rfl
@[simp] theorem writePixel_errKind (s : State) (row col : Nat) (b : Bool) : (s.writePixel row col b).errKind = s.errKind := rfl
@[simp] theorem writePixel_errAddr (s : State) (row col : Nat) (b : Bool) : (s.writePixel row col b).errAddr = s.errAddr := rfl
@[simp] theorem writePixel_errOpcode (s : State) (row col : Nat) (b : Bool) : (s.writePixel row col b).errOpcode = s.errOpcode := rfl
@[simp] theorem writePixel_cfg (s : State) (row col : Nat) (b : Bool) : (s.writePixel row col b).cfg = s.cfg := rfl
@[simp] theorem writePixel_sinkOpen (s : State) (row col : Nat) (b : Bool) : (s.writePixel row col b).sinkOpen = s.sinkOpen := rfl
@[simp] theorem writePixel_pending (s : State) (row col : Nat) (b : Bool) : (s.writePixel row col b).pending = s.pending := rfl
@[simp] theorem writePixel_fbUpdates (s : State) (row col : Nat) (b : Bool) : (s.writePixel row col b).fbUpdates = s.fbUpdates := rfl
@[simp] theorem writePixel_lastFrame (s : State) (row col : Nat) (b : Bool) : (s.writePixel row col b).lastFrame = s.lastFrame := rfl

/-! ### clearFB -/

@[simp] theorem clearFB_v (s : State) : s.clearFB.v = s.v := rfl
@[simp] theorem clearFB_pc (s : State) : s.clearFB.pc = s.pc := rfl
@[simp] theorem clearFB_i (s : State) : s.clearFB.i = s.i := rfl
@[simp] theorem clearFB_stack (s : State) : s.clearFB.stack = s.stack := rfl
@[simp] theorem clearFB_mem (s : State) : s.clearFB.mem = s.mem := rfl
@[simp] theorem clearFB_fb (s : State) : s.clearFB.fb = List.replicate s.cfg.cells false := rfl
@[simp] theorem clearFB_runState (s : State) : s.clearFB.runState = s.runState := rfl
@[simp] theorem clearFB_errKind (s : State) : s.clearFB.errKind = s.errKind := rfl
@[simp] theorem clearFB_errAddr (s : State) : s.clearFB.errAddr = s.errAddr := rfl
@[simp] theorem clearFB_errOpcode (s : State) : s.clearFB.errOpcode = s.errOpcode := rfl
@[simp] theorem clearFB_cfg (s : State) : s.clearFB.cfg = s.cfg := rfl
@[simp] theorem clearFB_sinkOpen (s : State) : s.clearFB.sinkOpen = s.sinkOpen := rfl
@[simp] theorem clearFB_pending (s : State) : s.clearFB.pending = s.pending := rfl
@[simp] theorem clearFB_fbUpdates (s : State) : s.clearFB.fbUpdates = s.fbUpdates := rfl
@[simp] theorem clearFB_lastFrame (s : State) : s.clearFB.lastFrame = s.lastFrame := rfl

/-! ### present -/

@[simp] theorem present_v (s : State) : s.present.v = s.v := rfl
@[simp] theorem present_pc (s : State) : s.present.pc = s.pc := rfl
@[simp] theorem present_i (s : State) : s.present.i = s.i := rfl
@[simp] theorem present_stack (s : State) : s.present.stack = s.stack := rfl
@[simp] theorem present_mem (s : State) : s.present.mem = s.mem := rfl
@[simp] theorem present_fb (s : State) : s.present.fb = s.fb := rfl
@[simp] theorem present_runState (s : State) : s.present.runState = s.runState := rfl
@[simp] theorem present_errKind (s : State) : s.present.errKind = s.errKind := rfl
@[simp] theorem present_errAddr (s : State) : s.present.errAddr = s.errAddr := rfl
@[simp] theorem present_errOpcode (s : State) : s.present.errOpcode = s.errOpcode := rfl
@[simp] theorem present_cfg (s : State) : s.present.cfg = s.cfg := rfl
@[simp] theorem present_sinkOpen (s : State) : s.present.sinkOpen = s.sinkOpen := rfl
@[simp] theorem present_pending (s : State) : s.present.pending = s.pending := rfl
@[simp] theorem present_fbUpdates (s : State) : s.present.fbUpdates = s.fbUpdates + 1 := rfl
@[simp] theorem present_lastFrame (s : State) : s.present.lastFrame = some s.fb := rfl

/-! ### raise -/

@[simp] theorem raise_v (s : State) (e : ErrKind) (a : Addr) (w : Word) : (s.raise e a w).v = s.v := rfl
@[simp] theorem raise_pc (s : State) (e : ErrKind) (a : Addr) (w : Word) : (s.raise e a w).pc = s.pc := rfl
@[simp] theorem raise_i (s : State) (e : ErrKind) (a : Addr) (w : Word) : (s.raise e a w).i = s.i := rfl
@[simp] theorem raise_stack (s : State) (e : ErrKind) (a : Addr) (w : Word) : (s.raise e a w).stack = s.stack := rfl
@[simp] theorem raise_mem (s : State) (e : ErrKind) (a : Addr) (w : Word) : (s.raise e a w).mem = s.mem := rfl
@[simp] theorem raise_fb (s : State) (e : ErrKind) (a : Addr) (w : Word) : (s.raise e a w).fb = s.fb := rfl
@[simp] theorem raise_runState (s : State) (e : ErrKind) (a : Addr) (w : Word) : (s.raise e a w).runState = .faulted := rfl
@[simp] theorem raise_errKind (s : State) (e : ErrKind) (a : Addr) (w : Word) : (s.raise e a w).errKind = e := rfl
@[simp] theorem raise_errAddr (s : State) (e : ErrKind) (a : Addr) (w : Word) : (s.raise e a w).errAddr = a := rfl
@[simp] theorem raise_errOpcode (s : State) (e : ErrKind) (a : Addr) (w : Word) : (s.raise e a w).errOpcode = w := rfl
@[simp] theorem raise_cfg (s : State) (e : ErrKind) (a : Addr) (w : Word) : (s.raise e a w).cfg = s.cfg := rfl
@[simp] theorem raise_sinkOpen (s : State) (e : ErrKind) (a : Addr) (w : Word) : (s.raise e a w).sinkOpen = s.sinkOpen := rfl
@[simp] theorem raise_pending (s : State) (e : ErrKind) (a : Addr) (w : Word) : (s.raise e a w).pending = s.pending := rfl
@[simp] theorem raise_fbUpdates (s : State) (e : ErrKind) (a : Addr) (w : Word) : (s.raise e a w).fbUpdates = s.fbUpdates := rfl
@[simp] theorem raise_lastFrame (s : State) (e : ErrKind) (a : Addr) (w : Word) : (s.raise e a w).lastFrame = s.lastFrame := rfl

/-! ### rst -/

@[simp] theorem rst_v (s : State) : s.rst.v = Vector.replicate 16 0x00 := rfl
@[simp] theorem rst_pc (s : State) : s.rst.pc = 0x200 := rfl
@[simp] theorem rst_i (s : State) : s.rst.i = 0x0000 := rfl
@[simp] theorem rst_stack (s : State) : s.rst.stack = [] := rfl
@[simp] theorem rst_mem (s : State) : s.rst.mem = [] := rfl
@[simp] theorem rst_fb (s : State) : s.rst.fb = List.replicate s.cfg.cells false := rfl
@[simp] theorem rst_runState (s : State) : s.rst.runState = .idle := rfl
@[simp] theorem rst_errKind (s : State) : s.rst.errKind = .none := rfl
@[simp] theorem rst_errAddr (s : State) : s.rst.errAddr = 0x000 := rfl
@[simp] theorem rst_errOpcode (s : State) : s.rst.errOpcode = 0x0000 := rfl
@[simp] theorem rst_cfg (s : State) : s.rst.cfg = s.cfg := rfl
@[simp] theorem rst_sinkOpen (s : State) : s.rst.sinkOpen = s.sinkOpen := rfl
@[simp] theorem rst_pending (s : State) : s.rst.pending = s.pending := rfl
@[simp] theorem rst_fbUpdates (s : State) : s.rst.fbUpdates = s.fbUpdates := rfl
@[simp] theorem rst_lastFrame (s : State) : s.rst.lastFrame = s.lastFrame := rfl

/-! ### The accessors -/

/-- A register read after a write: the written value in the written register, the old value in every other (R21). -/
@[simp] theorem readV_writeV (s : State) (x r : Reg) (b : Byte) :
    (s.writeV x b).readV r = if r = x then b else s.readV r := by
  unfold readV writeV
  simp only [Vector.getElem_set]
  by_cases h : r = x
  · simp [h]
  · simp [h, show x.toNat ≠ r.toNat from fun e => h (BitVec.eq_of_toNat_eq e.symm)]

@[simp] theorem readV_writeByte (s : State) (a : Addr) (b : Byte) (r : Reg) : (s.writeByte a b).readV r = s.readV r := rfl
@[simp] theorem pixel_writeByte (s : State) (a : Addr) (b : Byte) (r c : Nat) : (s.writeByte a b).pixel r c = s.pixel r c := rfl
@[simp] theorem readByte_writeV (s : State) (x : Reg) (b : Byte) (p : Addr) : (s.writeV x b).readByte p = s.readByte p := rfl
@[simp] theorem pixel_writeV (s : State) (x : Reg) (b : Byte) (r c : Nat) : (s.writeV x b).pixel r c = s.pixel r c := rfl
@[simp] theorem readV_writePC (s : State) (a : Addr) (r : Reg) : (s.writePC a).readV r = s.readV r := rfl
@[simp] theorem readByte_writePC (s : State) (a : Addr) (p : Addr) : (s.writePC a).readByte p = s.readByte p := rfl
@[simp] theorem pixel_writePC (s : State) (a : Addr) (r c : Nat) : (s.writePC a).pixel r c = s.pixel r c := rfl
@[simp] theorem readV_writeI (s : State) (w : Word) (r : Reg) : (s.writeI w).readV r = s.readV r := rfl
@[simp] theorem readByte_writeI (s : State) (w : Word) (p : Addr) : (s.writeI w).readByte p = s.readByte p := rfl
@[simp] theorem pixel_writeI (s : State) (w : Word) (r c : Nat) : (s.writeI w).pixel r c = s.pixel r c := rfl
@[simp] theorem readV_push (s : State) (a : Addr) (r : Reg) : (s.push a).readV r = s.readV r := rfl
@[simp] theorem readByte_push (s : State) (a : Addr) (p : Addr) : (s.push a).readByte p = s.readByte p := rfl
@[simp] theorem pixel_push (s : State) (a : Addr) (r c : Nat) : (s.push a).pixel r c = s.pixel r c := rfl
@[simp] theorem readV_withStack (s : State) (l : List Addr) (r : Reg) : (s.withStack l).readV r = s.readV r := rfl
@[simp] theorem readByte_withStack (s : State) (l : List Addr) (p : Addr) : (s.withStack l).readByte p = s.readByte p := rfl
@[simp] theorem pixel_withStack (s : State) (l : List Addr) (r c : Nat) : (s.withStack l).pixel r c = s.pixel r c := rfl
@[simp] theorem readV_writePixel (s : State) (row col : Nat) (b : Bool) (r : Reg) : (s.writePixel row col b).readV r = s.readV r := rfl
@[simp] theorem readByte_writePixel (s : State) (row col : Nat) (b : Bool) (p : Addr) : (s.writePixel row col b).readByte p = s.readByte p := rfl
@[simp] theorem readV_clearFB (s : State) (r : Reg) : s.clearFB.readV r = s.readV r := rfl
@[simp] theorem readByte_clearFB (s : State) (p : Addr) : s.clearFB.readByte p = s.readByte p := rfl
@[simp] theorem readV_present (s : State) (r : Reg) : s.present.readV r = s.readV r := rfl
@[simp] theorem readByte_present (s : State) (p : Addr) : s.present.readByte p = s.readByte p := rfl
@[simp] theorem pixel_present (s : State) (r c : Nat) : s.present.pixel r c = s.pixel r c := rfl
@[simp] theorem readV_raise (s : State) (e : ErrKind) (a : Addr) (w : Word) (r : Reg) : (s.raise e a w).readV r = s.readV r := rfl
@[simp] theorem readByte_raise (s : State) (e : ErrKind) (a : Addr) (w : Word) (p : Addr) : (s.raise e a w).readByte p = s.readByte p := rfl
@[simp] theorem pixel_raise (s : State) (e : ErrKind) (a : Addr) (w : Word) (r c : Nat) : (s.raise e a w).pixel r c = s.pixel r c := rfl

@[simp] theorem readV_rst (s : State) (r : Reg) : s.rst.readV r = 0x00 := by simp [readV]

@[simp] theorem readByte_rst (s : State) (p : Addr) : s.rst.readByte p = 0x00 := rfl

@[simp] theorem readV_resetWith (c : Config) (r : Reg) : (State.resetWith c).readV r = 0x00 := by
  simp [readV, State.resetWith]

@[simp] theorem readByte_resetWith (c : Config) (p : Addr) : (State.resetWith c).readByte p = 0x00 := rfl

/-- A cleared framebuffer reads false everywhere (R141). -/
@[simp] theorem pixel_clearFB (s : State) (r c : Nat) : s.clearFB.pixel r c = false := by
  simp only [pixel, clearFB_fb, getD_replicate_false]

@[simp] theorem pixel_rst (s : State) (r c : Nat) : s.rst.pixel r c = false := by
  simp only [pixel, rst_fb, getD_replicate_false]

@[simp] theorem pixel_resetWith (cfg : Config) (r c : Nat) : (State.resetWith cfg).pixel r c = false := by
  simp only [pixel, State.resetWith, getD_replicate_false]

/-- A skip changes PC alone (R110). -/
theorem skipIf_eq (s : State) (c : Bool) : s.skipIf c = s.writePC (if c then addr12 (s.pc.toNat + 2) else s.pc) := by
  cases c <;> rfl

/-- The result and the flag as seen after both writes: the flag survives when x = 0xF (R121). -/
@[simp] theorem readV_writeWithFlag (s : State) (x r : Reg) (b : Byte) (f : Bool) :
    (s.writeWithFlag x b f).readV r = if r = 0xF then flagByte f else if r = x then b else s.readV r := by
  simp [writeWithFlag, regVF]

end Sys2Proof.Machine.State
end

