-- ==== Sys2Proof/Laws/Display.lean ====
section
/-! SUPPORT. What the pixel compositor, one sprite row and a run of sprite rows do: said once, cited everywhere else. -/

namespace Sys2Proof.Machine

/-! ## Framebuffer cells -/

/-- Cells in range have their own flat index (R34). -/
theorem cellIndex_inj {w r c r' c' : Nat} (hc : c < w) (hc' : c' < w) (h : r * w + c = r' * w + c') : r = r' ∧ c = c' := by
  have hw : 0 < w := by omega
  have hr : r = r' := by
    have := congrArg (· / w) h
    simpa [Nat.add_div_of_dvd_right, Nat.mul_comm _ w, Nat.mul_add_div hw, Nat.div_eq_of_lt hc, Nat.div_eq_of_lt hc'] using this
  subst hr
  exact ⟨rfl, by omega⟩

/-- A cell in range has a flat index within the framebuffer (R34). -/
theorem cellIndex_lt {w h r c : Nat} (hr : r < h) (hc : c < w) : r * w + c < w * h := by
  calc r * w + c < r * w + w := by omega
    _ = (r + 1) * w := by rw [Nat.add_mul, Nat.one_mul]
    _ ≤ h * w := Nat.mul_le_mul_right w hr
    _ = w * h := Nat.mul_comm h w

/-- A cell read after a cell write, both in range. -/
theorem State.pixel_writePixel {s : State} (hs : s.fb.length = s.cfg.cells) {row col r c : Nat} {b : Bool}
    (hrow : row < s.cfg.displayH) (hcol : col < s.cfg.displayW) (hc : c < s.cfg.displayW) :
    (s.writePixel row col b).pixel r c = if r = row ∧ c = col then b else s.pixel r c := by
  have hlt : s.cellIndex row col < s.fb.length := by rw [hs]; exact cellIndex_lt hrow hcol
  simp only [State.pixel, State.writePixel_fb, State.cellIndex, State.writePixel_cfg, List.getD_eq_getElem?_getD,
    List.getElem?_set]
  by_cases h : r = row ∧ c = col
  · obtain ⟨rfl, rfl⟩ := h
    simp only [State.cellIndex] at hlt
    simp [hlt]
  · rw [if_neg (fun e => h (by have := cellIndex_inj hcol hc e; exact ⟨this.1.symm, this.2.symm⟩)), if_neg h]

/-! ## One pixel -/

/-- Composing a pixel touches FB and VF alone, and keeps the framebuffer's shape (R148, R149, R153). -/
theorem composePixel_eq (row col : Nat) (bit : Bool) (s : State) :
    composePixel row col bit s =
      let t := s.writePixel row col (s.pixel row col ^^ bit)
      if s.pixel row col && bit then t.writeV regVF 0x01 else t := by
  unfold composePixel collides
  cases s.pixel row col <;> cases bit <;> rfl

/-! ## What a Draw can touch -/

/-- `t` is `s` but for the contents of FB and the value of VF: what every part of a Draw leaves (R153). -/
def DrawnFrom (s t : State) : Prop :=
  t = { s with v := t.v, fb := t.fb } ∧ t.fb.length = s.fb.length ∧ ∀ r, r ≠ 0xF → t.readV r = s.readV r

theorem DrawnFrom.refl (s : State) : DrawnFrom s s := ⟨rfl, rfl, fun _ _ => rfl⟩

theorem DrawnFrom.trans {s t u : State} (h : DrawnFrom s t) (h' : DrawnFrom t u) : DrawnFrom s u := by
  refine ⟨?_, h'.2.1.trans h.2.1, fun r hr => (h'.2.2 r hr).trans (h.2.2 r hr)⟩
  rw [h'.1, h.1]

theorem DrawnFrom.cfg {s t : State} (h : DrawnFrom s t) : t.cfg = s.cfg := by rw [h.1]

theorem DrawnFrom.i {s t : State} (h : DrawnFrom s t) : t.i = s.i := by rw [h.1]

theorem DrawnFrom.mem {s t : State} (h : DrawnFrom s t) : t.mem = s.mem := by rw [h.1]

theorem DrawnFrom.readByte {s t : State} (h : DrawnFrom s t) (a : Addr) : t.readByte a = s.readByte a := by
  rw [State.readByte, State.readByte, h.mem]

theorem DrawnFrom.spriteByte {s t : State} (h : DrawnFrom s t) (r : Nat) : t.spriteByte r = s.spriteByte r := by
  rw [State.spriteByte, State.spriteByte, h.i, h.readByte]

/-- Clearing VF, step 2 of a Draw (R144). -/
theorem drawnFrom_writeVF (s : State) (b : Byte) : DrawnFrom s (s.writeV 0xF b) :=
  ⟨rfl, rfl, fun r hr => by rw [State.readV_writeV, if_neg hr]⟩

theorem drawnFrom_composePixel (row col : Nat) (bit : Bool) (s : State) : DrawnFrom s (composePixel row col bit s) := by
  have hw (b : Bool) : DrawnFrom s (s.writePixel row col b) := ⟨rfl, by simp, fun _ _ => rfl⟩
  rw [composePixel_eq]
  dsimp only
  split
  · exact (hw _).trans (drawnFrom_writeVF _ _)
  · exact hw _

theorem drawnFrom_composeBits (row : Nat) : ∀ (bits : List Bool) (col : Nat) (s : State), DrawnFrom s (composeBits row bits col s)
  | [], _, s => DrawnFrom.refl s
  | bit :: bits, col, s => by
    unfold composeBits
    split
    · exact DrawnFrom.refl s
    · exact (drawnFrom_composePixel row col bit s).trans (drawnFrom_composeBits row bits (col + 1) _)

theorem drawnFrom_drawRows (x : Reg) (c0 r0 : Nat) : ∀ (k r : Nat) (s : State), DrawnFrom s (drawRows x c0 r0 k r s)
  | 0, _, s => DrawnFrom.refl s
  | k + 1, r, s => by
    unfold drawRows
    split
    · exact DrawnFrom.refl s
    · exact (drawnFrom_composeBits _ _ _ s).trans (drawnFrom_drawRows x c0 r0 k (r + 1) _)

/-! ## One sprite row -/

/-- Whether a sprite row composed from column `col` on meets a set pixel with a set bit (R148). -/
def BitsCollide (s : State) (row : Nat) (bits : List Bool) (col : Nat) : Prop :=
  ∃ c, c < s.cfg.displayW ∧ col ≤ c ∧ s.pixel row c = true ∧ bits.getD (c - col) false = true

/-- The cells after one sprite row: each in-range cell of the row is XORed with its bit, all others stay (R146, R149). -/
theorem pixel_composeBits (row : Nat) : ∀ (bits : List Bool) (col : Nat) (s : State),
    s.fb.length = s.cfg.cells → row < s.cfg.displayH → ∀ r c, c < s.cfg.displayW →
    (composeBits row bits col s).pixel r c =
      (s.pixel r c ^^ (decide (r = row) && decide (col ≤ c) && bits.getD (c - col) false))
  | [], col, s, _, _, r, c, _ => by simp [composeBits]
  | bit :: bits, col, s, hs, hrow, r, c, hc => by
    unfold composeBits
    split
    · rename_i hcol
      simp [show ¬ col ≤ c by omega]
    · rename_i hcol
      have hd := drawnFrom_composePixel row col bit s
      rw [pixel_composeBits row bits (col + 1) _ (by rw [hd.2.1, hd.cfg, hs]) (by rw [hd.cfg]; exact hrow) r c
        (by rw [hd.cfg]; exact hc)]
      have hp : (composePixel row col bit s).pixel r c = if r = row ∧ c = col then (s.pixel row col ^^ bit) else s.pixel r c := by
        rw [composePixel_eq]
        dsimp only
        split <;> simp [State.pixel_writePixel hs hrow (by omega : col < s.cfg.displayW) hc]
      rw [hp]
      by_cases h1 : r = row
      · subst h1
        by_cases h2 : c = col
        · subst h2; simp
        · by_cases h3 : col ≤ c
          · obtain ⟨d, hd⟩ : ∃ d, c - col = d + 1 := ⟨c - col - 1, by omega⟩
            have : c - (col + 1) = d := by omega
            simp [h2, h3, hd, this, show col + 1 ≤ c by omega]
          · simp [h2, h3, show ¬ col + 1 ≤ c by omega]
      · simp [h1]

/-- VF after one sprite row: set when a composed pixel collided, else as before (R148). -/
theorem readVF_composeBits (row : Nat) : ∀ (bits : List Bool) (col : Nat) (s : State),
    s.fb.length = s.cfg.cells → row < s.cfg.displayH →
    (BitsCollide s row bits col → (composeBits row bits col s).readV 0xF = 0x01) ∧
    (¬ BitsCollide s row bits col → (composeBits row bits col s).readV 0xF = s.readV 0xF)
  | [], col, s, _, _ => by simp [composeBits, BitsCollide]
  | bit :: bits, col, s, hs, hrow => by
    unfold composeBits
    split
    · rename_i hcol
      refine ⟨fun ⟨c, hc, hcc, _⟩ => by omega, fun _ => rfl⟩
    · rename_i hcol
      have hd := drawnFrom_composePixel row col bit s
      have ih := readVF_composeBits row bits (col + 1) (composePixel row col bit s) (by rw [hd.2.1, hd.cfg, hs])
        (by rw [hd.cfg]; exact hrow)
      have hvf : (composePixel row col bit s).readV 0xF = if s.pixel row col && bit then 0x01 else s.readV 0xF := by
        rw [composePixel_eq]
        dsimp only
        split <;> simp [regVF]
      have hp : ∀ c, c < s.cfg.displayW → c ≠ col → (composePixel row col bit s).pixel row c = s.pixel row c := by
        intro c hc hne
        rw [composePixel_eq]
        dsimp only
        split <;> simp [State.pixel_writePixel hs hrow (by omega : col < s.cfg.displayW) hc, hne]
      have hrest : BitsCollide (composePixel row col bit s) row bits (col + 1) ↔
          ∃ c, c < s.cfg.displayW ∧ col + 1 ≤ c ∧ s.pixel row c = true ∧ (bit :: bits).getD (c - col) false = true := by
        unfold BitsCollide
        rw [hd.cfg]
        refine exists_congr fun c => and_congr_right fun hc => and_congr_right fun hcc => ?_
        rw [hp c hc (by omega), show c - col = (c - (col + 1)) + 1 by omega, List.getD_cons_succ]
      by_cases hr : BitsCollide (composePixel row col bit s) row bits (col + 1)
      · obtain ⟨c, hc, hcc, h1, h2⟩ := hrest.1 hr
        exact ⟨fun _ => ih.1 hr, fun hn => absurd ⟨c, hc, by omega, h1, h2⟩ hn⟩
      · rw [ih.2 hr, hvf]
        by_cases hb : (s.pixel row col && bit) = true
        · simp only [Bool.and_eq_true] at hb
          refine ⟨fun _ => by simp [hb], fun hn => absurd ⟨col, by omega, le_refl _, hb.1, by simpa using hb.2⟩ hn⟩
        · refine ⟨fun ⟨c, hc, hcc, h1, h2⟩ => ?_, fun _ => by rw [if_neg hb]⟩
          by_cases hcol' : c = col
          · subst hcol'
            simp only [Nat.sub_self, List.getD_cons_zero] at h2
            simp [h1, h2] at hb
          · exact absurd (hrest.2 ⟨c, hc, by omega, h1, h2⟩) hr

/-! ## A run of sprite rows -/

/-- The bit of sprite row `r` that falls on column `c` when the row starts at `start` (R145). -/
def State.rowBit (s : State) (r start c : Nat) : Bool :=
  decide (start ≤ c) && decide (c - start < 8) && (s.spriteByte r).getLsbD (7 - (c - start))

/-- Bit b of a sprite row, counted from the left, is byte[7 − b]: "MSB first" (R145). -/
theorem getD_spriteBits (b : Byte) (k : Nat) : (spriteBits b).getD k false = (decide (k < 8) && b.getLsbD (7 - k)) := by
  by_cases h : k < 8
  · interval_cases k <;> simp [spriteBits]
  · rw [List.getD_eq_default _ _ (by simp [spriteBits]; omega)]
    simp [h]

theorem and_getD_spriteBits (s : State) (r start c : Nat) :
    (decide (start ≤ c) && (spriteBits (s.spriteByte r)).getD (c - start) false) = s.rowBit r start c := by
  rw [getD_spriteBits, State.rowBit, Bool.and_assoc]

/-- Rows `r` to `r + k - 1` of a sprite as bits over the framebuffer, when sprite row `q` starts at column `cols q`. -/
def State.rowsBit (s : State) (r0 r k : Nat) (cols : Nat → Nat) (row c : Nat) : Bool :=
  decide (r0 + r ≤ row) && decide (row < r0 + r + k) && s.rowBit (row - r0) (cols (row - r0)) c

theorem DrawnFrom.rowsBit {s t : State} (h : DrawnFrom s t) (r0 r k : Nat) (cols : Nat → Nat) (row c : Nat) :
    t.rowsBit r0 r k cols row c = s.rowsBit r0 r k cols row c := by
  simp only [State.rowsBit, State.rowBit, h.spriteByte]

/-- Whether one of those rows meets a set pixel with a set bit (R148). -/
def RowsCollide (s : State) (r0 r k : Nat) (cols : Nat → Nat) : Prop :=
  ∃ row c, row < s.cfg.displayH ∧ c < s.cfg.displayW ∧ s.pixel row c = true ∧ s.rowsBit r0 r k cols row c = true

/-- The first of `k + 1` rows, and the `k` after it. -/
theorem rowsBit_succ (s : State) (r0 r k : Nat) (cols : Nat → Nat) (row c : Nat) :
    s.rowsBit r0 r (k + 1) cols row c =
      ((decide (row = r0 + r) && s.rowBit r (cols r) c) || s.rowsBit r0 (r + 1) k cols row c) := by
  unfold State.rowsBit
  by_cases h : row = r0 + r
  · subst h
    simp [show r0 + r < r0 + r + (k + 1) by omega]
  · by_cases h1 : r0 + r ≤ row
    · simp [h, h1, show r0 + (r + 1) ≤ row by omega, show (row < r0 + r + (k + 1)) ↔ (row < r0 + (r + 1) + k) by omega]
    · simp [h, h1, show ¬ r0 + (r + 1) ≤ row by omega]

/-- A run of sprite rows, all at once: cells are XORed with the sprite's bits, and VF is set exactly when a set pixel met a
set bit (R145 to R149). `cols` gives the column each row starts at. -/
theorem drawRows_spec (x : Reg) (c0 r0 : Nat) (cols : Nat → Nat) : ∀ (k r : Nat) (s : State),
    s.fb.length = s.cfg.cells →
    (∀ j, j < k → r0 + r + j < s.cfg.displayH → (drawRows x c0 r0 j r s).rowStart x c0 = cols (r + j)) →
    (∀ row c, row < s.cfg.displayH → c < s.cfg.displayW →
      (drawRows x c0 r0 k r s).pixel row c = (s.pixel row c ^^ s.rowsBit r0 r k cols row c)) ∧
    (RowsCollide s r0 r k cols → (drawRows x c0 r0 k r s).readV 0xF = 0x01) ∧
    (¬ RowsCollide s r0 r k cols → (drawRows x c0 r0 k r s).readV 0xF = s.readV 0xF)
  | 0, r, s, _, _ => by
    have hb : ∀ row c, s.rowsBit r0 r 0 cols row c = false := by
      intro row c
      unfold State.rowsBit
      by_cases h : r0 + r ≤ row
      · simp [show ¬ row < r0 + r by omega]
      · simp [h]
    refine ⟨fun row c _ _ => by simp [drawRows, hb], fun ⟨row, c, _, _, _, h⟩ => by simp [hb] at h, fun _ => rfl⟩
  | k + 1, r, s, hs, hcols => by
    by_cases hrow : r0 + r ≥ s.cfg.displayH
    · have hd : drawRows x c0 r0 (k + 1) r s = s := by rw [drawRows, if_pos hrow]
      have hb : ∀ row c, row < s.cfg.displayH → s.rowsBit r0 r (k + 1) cols row c = false := by
        intro row c h
        simp [State.rowsBit, show ¬ r0 + r ≤ row by omega]
      rw [hd]
      exact ⟨fun row c h _ => by simp [hb row c h], fun ⟨row, c, h, _, _, h'⟩ => by simp [hb row c h] at h', fun _ => rfl⟩
    · have hstart : s.rowStart x c0 = cols r := by simpa [drawRows] using hcols 0 (by omega) (by omega)
      have hdraw : ∀ j, drawRows x c0 r0 (j + 1) r s =
          drawRows x c0 r0 j (r + 1) (composeBits (r0 + r) (spriteBits (s.spriteByte r)) (cols r) s) := fun j => by
        rw [drawRows, if_neg hrow, hstart]
      have hd := drawnFrom_composeBits (r0 + r) (spriteBits (s.spriteByte r)) (cols r) s
      have hpix := pixel_composeBits (r0 + r) (spriteBits (s.spriteByte r)) (cols r) s hs (by omega)
      have hvf := readVF_composeBits (r0 + r) (spriteBits (s.spriteByte r)) (cols r) s hs (by omega)
      rw [hdraw]
      generalize composeBits (r0 + r) (spriteBits (s.spriteByte r)) (cols r) s = t at *
      have ih := drawRows_spec x c0 r0 cols k (r + 1) t (by rw [hd.2.1, hd.cfg, hs]) (fun j hj hlt => by
        rw [← hdraw]
        simpa [Nat.add_assoc, Nat.add_comm 1 j] using hcols (j + 1) (by omega) (by rw [hd.cfg] at hlt; omega))
      have hsplit : ∀ row c, c < s.cfg.displayW → row < s.cfg.displayH →
          t.pixel row c = (s.pixel row c ^^ (decide (row = r0 + r) && s.rowBit r (cols r) c)) := fun row c hc _ => by
        rw [hpix row c hc, Bool.and_assoc, and_getD_spriteBits]
      have hlater : ∀ row c, s.rowsBit r0 (r + 1) k cols row c = true → row ≠ r0 + r := by
        intro row c h e
        simp [State.rowsBit, e, show ¬ r0 + (r + 1) ≤ r0 + r by omega] at h
      have hcoll : RowsCollide s r0 r (k + 1) cols ↔
          BitsCollide s (r0 + r) (spriteBits (s.spriteByte r)) (cols r) ∨ RowsCollide t r0 (r + 1) k cols := by
        constructor
        · rintro ⟨row, c, h1, h2, h3, h4⟩
          rw [rowsBit_succ, Bool.or_eq_true] at h4
          rcases h4 with h4 | h4
          · simp only [Bool.and_eq_true, decide_eq_true_eq] at h4
            obtain ⟨rfl, h4⟩ := h4
            rw [← and_getD_spriteBits, Bool.and_eq_true, decide_eq_true_eq] at h4
            exact .inl ⟨c, h2, h4.1, h3, h4.2⟩
          · refine .inr ⟨row, c, by rw [hd.cfg]; exact h1, by rw [hd.cfg]; exact h2, ?_, by rw [hd.rowsBit]; exact h4⟩
            rw [hsplit row c h2 h1]
            simp [hlater row c h4, h3]
        · rintro (⟨c, h1, h2, h3, h4⟩ | ⟨row, c, h1, h2, h3, h4⟩)
          · refine ⟨r0 + r, c, by omega, h1, h3, ?_⟩
            rw [rowsBit_succ, ← and_getD_spriteBits, h4]
            simp [h2]
          · rw [hd.cfg] at h1 h2
            rw [hd.rowsBit] at h4
            refine ⟨row, c, h1, h2, ?_, by rw [rowsBit_succ, h4, Bool.or_true]⟩
            rw [hsplit row c h2 h1] at h3
            simpa [hlater row c h4] using h3
      refine ⟨fun row c h1 h2 => ?_, fun h => ?_, fun h => ?_⟩
      · rw [ih.1 row c (by rw [hd.cfg]; exact h1) (by rw [hd.cfg]; exact h2), hd.rowsBit, hsplit row c h2 h1, rowsBit_succ]
        by_cases hl : s.rowsBit r0 (r + 1) k cols row c = true
        · simp [hl, hlater row c hl]
        · simp [Bool.not_eq_true _ ▸ hl]
      · by_cases hk : RowsCollide t r0 (r + 1) k cols
        · exact ih.2.1 hk
        · rw [ih.2.2 hk]
          exact hvf.1 ((hcoll.1 h).resolve_right hk)
      · rw [ih.2.2 (fun hk => h (hcoll.2 (.inr hk)))]
        exact hvf.2 (fun hk => h (hcoll.2 (.inl hk)))

/-- When the rows' starting column does not depend on VF, every row starts at `c0` (R147). -/
theorem rowStart_of_fixed {x : Reg} {s t : State} (h : DrawnFrom s t)
    (hx : s.cfg.drawColumnSource = .latched ∨ x ≠ 0xF) : t.rowStart x (s.columnOf x) = s.columnOf x := by
  unfold State.rowStart
  rw [h.cfg]
  split
  · rfl
  · rename_i hr
    have hne : x ≠ 0xF := hx.resolve_left (by rw [hr]; decide)
    rw [State.columnOf, State.columnOf, h.cfg, h.2.2 x hne]

end Sys2Proof.Machine
end

