-- ==== Sys2Proof/Laws/Memory.lean ====
section
/-! SUPPORT. Memory: a read after a write, and that a write keeps the canonical form. -/

namespace Sys2Proof.Machine

/-- Canonical from a higher address on is canonical from a lower one on. -/
theorem Memory.wfFrom_mono {lo lo' : Nat} (h : lo' ≤ lo) : ∀ {m : Memory}, Memory.wfFrom lo m = true → Memory.wfFrom lo' m = true
  | [], _ => rfl
  | (k, b) :: rest, hw => by
    simp only [Memory.wfFrom, Bool.and_eq_true, decide_eq_true_eq] at hw ⊢
    exact ⟨⟨⟨by omega, hw.1.1.2⟩, hw.1.2⟩, hw.2⟩

/-- An address below every entry is not listed. -/
theorem Memory.lookup_below {lo a : Nat} (h : a < lo) : ∀ {m : Memory}, Memory.wfFrom lo m = true → Memory.lookup m a = unlistedByte
  | [], _ => rfl
  | (k, b) :: rest, hw => by
    simp only [Memory.wfFrom, Bool.and_eq_true, decide_eq_true_eq] at hw
    rw [Memory.lookup, if_neg (by omega)]
    exact Memory.lookup_below (lo := k + 1) (by omega) hw.2

/-- A read after a write: the written byte at its address, the old byte at every other. -/
theorem Memory.lookup_store {lo a p : Nat} {b : Byte} :
    ∀ {m : Memory}, Memory.wfFrom lo m = true → Memory.lookup (Memory.store m a b) p = if p = a then b else Memory.lookup m p
  | [], _ => by
    simp only [Memory.store]
    by_cases hb : b = unlistedByte
    · simp [hb, Memory.lookup]
    · simp [hb, Memory.lookup, eq_comm]
  | (k, c) :: rest, hw => by
    have hw' := hw
    simp only [Memory.wfFrom, Bool.and_eq_true, decide_eq_true_eq] at hw
    have below : ∀ q, q < k → Memory.lookup ((k, c) :: rest) q = unlistedByte := fun q hq =>
      Memory.lookup_below (lo := k) hq (by simpa [Memory.wfFrom, hw.1.1.2, hw.2] using hw.1.2)
    have after : ∀ q, q < k + 1 → Memory.lookup rest q = unlistedByte := fun q hq => Memory.lookup_below hq hw.2
    rw [Memory.store]
    split
    · rename_i ha
      split
      · rename_i hb
        by_cases hp : p = a
        · subst hp; rw [if_pos rfl, below p ha, hb]
        · rw [if_neg hp]
      · by_cases hp : p = a
        · simp [hp, Memory.lookup]
        · rw [if_neg hp, Memory.lookup, if_neg (fun h => hp h.symm)]
    · split
      · rename_i _ hak
        split
        · rename_i hb
          by_cases hp : p = a
          · rw [if_pos hp, after p (by omega), hb]
          · rw [if_neg hp, Memory.lookup, if_neg (by omega)]
        · by_cases hp : p = a
          · simp [hp, Memory.lookup]
          · rw [if_neg hp, Memory.lookup, Memory.lookup, if_neg (by omega), if_neg (by omega)]
      · rename_i _ hak
        rw [Memory.lookup, Memory.lookup, Memory.lookup_store hw.2]
        by_cases hk : k = p
        · rw [if_pos hk, if_pos hk, if_neg (by omega)]
        · rw [if_neg hk, if_neg hk]

/-- A write keeps the canonical form. -/
theorem Memory.wfFrom_store {a : Nat} {b : Byte} (ha : a < 4096) :
    ∀ {m : Memory} {lo : Nat}, lo ≤ a → Memory.wfFrom lo m = true → Memory.wfFrom lo (Memory.store m a b) = true
  | [], lo, hlo, _ => by
    rw [Memory.store]
    by_cases hb : b = unlistedByte
    · simp [hb, Memory.wfFrom]
    · simp [hb, Memory.wfFrom, hlo, ha]
  | (k, c) :: rest, lo, hlo, hw => by
    have hw' := hw
    simp only [Memory.wfFrom, Bool.and_eq_true, decide_eq_true_eq, bne_iff_ne, ne_eq] at hw
    rw [Memory.store]
    split
    · rename_i hak
      split
      · exact hw'
      · rename_i hb
        simp only [Memory.wfFrom, Bool.and_eq_true, decide_eq_true_eq, bne_iff_ne, ne_eq]
        exact ⟨⟨⟨hlo, ha⟩, hb⟩, ⟨⟨⟨by omega, hw.1.1.2⟩, hw.1.2⟩, hw.2⟩⟩
    · split
      · rename_i _ hak
        split
        · exact Memory.wfFrom_mono (by omega) hw.2
        · rename_i hb
          simp only [Memory.wfFrom, Bool.and_eq_true, decide_eq_true_eq, bne_iff_ne, ne_eq]
          exact ⟨⟨⟨hlo, ha⟩, hb⟩, hak ▸ hw.2⟩
      · rename_i hlt hne
        simp only [Memory.wfFrom, Bool.and_eq_true, decide_eq_true_eq, bne_iff_ne, ne_eq]
        exact ⟨hw.1, Memory.wfFrom_store ha (by omega) hw.2⟩

/-- The one operation that writes memory keeps its canonical form. -/
theorem State.wf_writeByte {s : State} (h : Memory.wf s.mem = true) (a : Addr) (b : Byte) :
    Memory.wf (s.writeByte a b).mem = true :=
  Memory.wfFrom_store a.isLt (Nat.zero_le _) h

/-- `M[a] <- b` as the reads see it (R50). -/
theorem State.readByte_writeByte {s : State} (h : Memory.wf s.mem = true) (a p : Addr) (b : Byte) :
    (s.writeByte a b).readByte p = if p = a then b else s.readByte p := by
  simp only [State.readByte, State.writeByte_mem, Memory.lookup_store h, BitVec.toNat_inj]

/-- Reset's memory is canonical. -/
theorem State.wf_resetWith (c : Config) : Memory.wf (State.resetWith c).mem = true := rfl

end Sys2Proof.Machine
end

