-- ==== Sys2Proof/Laws/PerInstr.lean ====
section
/-! SUPPORT. Per instruction: the word the encoder gives is one of the opcode table (R76), so it is legal. -/

namespace Sys2Proof.Laws.EncodeLegal

open Sys2Proof

/-- The instruction's word is in R76's set. -/
def Statement (i : Instr) : Prop := legalWord (encode i) = true

/-- A word is legal when some row of the table matches it. -/
theorem legal_of_row {w : Word} (r : OpcodeRow) (hr : r ∈ opcodeTable) (hw : r.matchesWord w = true) :
    legalWord w = true :=
  List.any_eq_true.mpr ⟨r, hr, hw⟩

/-- A row that compares the family alone matches every word of its family. -/
theorem legal_of_family (w : Word) (r : OpcodeRow) (hr : r ∈ opcodeTable) (hmask : r.mask = 0xF000)
    (hf : family r.pattern = family w) (hx : fieldX r.pattern = 0) (hy : fieldY r.pattern = 0) (hn : fieldN r.pattern = 0) :
    legalWord w = true := by
  refine legal_of_row r hr ?_
  have hf' : family 0xF000 = 0xF := by decide
  have hx' : fieldX 0xF000 = 0x0 := by decide
  have hy' : fieldY 0xF000 = 0x0 := by decide
  have hn' : fieldN 0xF000 = 0x0 := by decide
  have hall : ∀ a : BitVec 4, a &&& 0xF = a := by decide
  have hnone : ∀ a : BitVec 4, a &&& 0x0 = 0 := by decide
  rw [← xyn_of_fields w, matchesWord_nibbles, hmask, hf, hx, hy, hn, hf', hx', hy', hn', hall, hnone, hnone, hnone]
  simp

/-- A row that compares the first and the last nibble matches every word with those two. -/
theorem legal_of_function (f x y n : BitVec 4) (r : OpcodeRow) (hr : r ∈ opcodeTable) (hmask : r.mask = 0xF00F)
    (hf : family r.pattern = f) (hx : fieldX r.pattern = 0) (hy : fieldY r.pattern = 0) (hn : fieldN r.pattern = n) :
    legalWord (f ++ x ++ y ++ n) = true := by
  refine legal_of_row r hr ?_
  have hf' : family 0xF00F = 0xF := by decide
  have hx' : fieldX 0xF00F = 0x0 := by decide
  have hy' : fieldY 0xF00F = 0x0 := by decide
  have hn' : fieldN 0xF00F = 0xF := by decide
  have hall : ∀ a : BitVec 4, a &&& 0xF = a := by decide
  have hnone : ∀ a : BitVec 4, a &&& 0x0 = 0 := by decide
  rw [matchesWord_nibbles, hmask, hf, hx, hy, hn, hf', hx', hy', hn', hall, hall, hnone, hnone]
  simp

theorem clearScreen : Statement .clearScreen := by unfold Statement; decide

theorem ret : Statement .ret := by unfold Statement; decide

theorem jump (nnn : Addr) : Statement (.jump nnn) :=
  legal_of_family _ ⟨"Jump", 0x1000, 0xF000⟩ (by decide) rfl (by simp only [encode, family_nnn]; decide)
    (by decide) (by decide) (by decide)

theorem call (nnn : Addr) : Statement (.call nnn) :=
  legal_of_family _ ⟨"Call", 0x2000, 0xF000⟩ (by decide) rfl (by simp only [encode, family_nnn]; decide)
    (by decide) (by decide) (by decide)

theorem skipIfEqual (x : Reg) (nn : Byte) : Statement (.skipIfEqual x nn) :=
  legal_of_family _ ⟨"SkipIfEqual", 0x3000, 0xF000⟩ (by decide) rfl (by simp only [encode, family_xnn]; decide)
    (by decide) (by decide) (by decide)

theorem skipIfNotEqual (x : Reg) (nn : Byte) : Statement (.skipIfNotEqual x nn) :=
  legal_of_family _ ⟨"SkipIfNotEqual", 0x4000, 0xF000⟩ (by decide) rfl (by simp only [encode, family_xnn]; decide)
    (by decide) (by decide) (by decide)

theorem skipIfEqualXY (x y : Reg) : Statement (.skipIfEqualXY x y) :=
  legal_of_function _ x y _ ⟨"SkipIfEqualXY", 0x5000, 0xF00F⟩ (by decide) rfl (by decide) (by decide) (by decide) (by decide)

theorem setVX (x : Reg) (nn : Byte) : Statement (.setVX x nn) :=
  legal_of_family _ ⟨"SetVX", 0x6000, 0xF000⟩ (by decide) rfl (by simp only [encode, family_xnn]; decide)
    (by decide) (by decide) (by decide)

theorem addVX (x : Reg) (nn : Byte) : Statement (.addVX x nn) :=
  legal_of_family _ ⟨"AddVX", 0x7000, 0xF000⟩ (by decide) rfl (by simp only [encode, family_xnn]; decide)
    (by decide) (by decide) (by decide)

theorem setVXToVY (x y : Reg) : Statement (.setVXToVY x y) :=
  legal_of_function _ x y _ ⟨"SetVXToVY", 0x8000, 0xF00F⟩ (by decide) rfl (by decide) (by decide) (by decide) (by decide)

theorem orVXVY (x y : Reg) : Statement (.orVXVY x y) :=
  legal_of_function _ x y _ ⟨"OrVXVY", 0x8001, 0xF00F⟩ (by decide) rfl (by decide) (by decide) (by decide) (by decide)

theorem andVXVY (x y : Reg) : Statement (.andVXVY x y) :=
  legal_of_function _ x y _ ⟨"AndVXVY", 0x8002, 0xF00F⟩ (by decide) rfl (by decide) (by decide) (by decide) (by decide)

theorem xorVXVY (x y : Reg) : Statement (.xorVXVY x y) :=
  legal_of_function _ x y _ ⟨"XorVXVY", 0x8003, 0xF00F⟩ (by decide) rfl (by decide) (by decide) (by decide) (by decide)

theorem addVYToVX (x y : Reg) : Statement (.addVYToVX x y) :=
  legal_of_function _ x y _ ⟨"AddVYToVX", 0x8004, 0xF00F⟩ (by decide) rfl (by decide) (by decide) (by decide) (by decide)

theorem subVYFromVX (x y : Reg) : Statement (.subVYFromVX x y) :=
  legal_of_function _ x y _ ⟨"SubVYFromVX", 0x8005, 0xF00F⟩ (by decide) rfl (by decide) (by decide) (by decide) (by decide)

theorem shiftRight (x y : Reg) : Statement (.shiftRight x y) :=
  legal_of_function _ x y _ ⟨"ShiftRight", 0x8006, 0xF00F⟩ (by decide) rfl (by decide) (by decide) (by decide) (by decide)

theorem subVXFromVY (x y : Reg) : Statement (.subVXFromVY x y) :=
  legal_of_function _ x y _ ⟨"SubVXFromVY", 0x8007, 0xF00F⟩ (by decide) rfl (by decide) (by decide) (by decide) (by decide)

theorem shiftLeft (x y : Reg) : Statement (.shiftLeft x y) :=
  legal_of_function _ x y _ ⟨"ShiftLeft", 0x800E, 0xF00F⟩ (by decide) rfl (by decide) (by decide) (by decide) (by decide)

theorem skipIfNotEqualXY (x y : Reg) : Statement (.skipIfNotEqualXY x y) :=
  legal_of_function _ x y _ ⟨"SkipIfNotEqualXY", 0x9000, 0xF00F⟩ (by decide) rfl (by decide) (by decide) (by decide) (by decide)

theorem setIRegister (nnn : Addr) : Statement (.setIRegister nnn) :=
  legal_of_family _ ⟨"SetIRegister", 0xA000, 0xF000⟩ (by decide) rfl (by simp only [encode, family_nnn]; decide)
    (by decide) (by decide) (by decide)

theorem draw (x y : Reg) (n : BitVec 4) : Statement (.draw x y n) :=
  legal_of_family _ ⟨"Draw", 0xD000, 0xF000⟩ (by decide) rfl (by simp only [encode, family_xyn]; decide)
    (by decide) (by decide) (by decide)

end Sys2Proof.Laws.EncodeLegal
end

