-- ==== Sys2Proof/Laws/Step.lean ====
section
/-! SUPPORT. Addresses, the fetch, and what exec, a cycle and a step can do: the inversion lemmas every later proof cites. -/

namespace Sys2Proof.Machine

/-! ## Addresses -/

/-- Adding to an address wraps modulo 4096 (R30). -/
theorem addr12_toNat_add (a : Addr) (k : Nat) : addr12 (a.toNat + k) = a + BitVec.ofNat 12 k := by
  apply BitVec.eq_of_toNat_eq
  simp [addr12]

/-- A, from the PC that execute sees (R26). -/
@[simp] theorem State.fetchAddress_eq (s : State) : s.fetchAddress = s.pc - 2 := by
  apply BitVec.eq_of_toNat_eq
  have := s.pc.isLt
  have h2 : (2 : Addr).toNat = 2 := rfl
  simp only [State.fetchAddress, addr12, BitVec.toNat_ofNat, BitVec.toNat_sub, h2]
  omega

/-- Execute sees the fetch address of the instruction it runs (R26). -/
@[simp] theorem State.fetchAddress_atExecute (s : State) (rest : List PortEvent) : (s.atExecute rest).fetchAddress = s.pc := by
  rw [State.fetchAddress_eq, State.atExecute]
  exact BitVec.add_sub_cancel s.pc 2

/-! ## The fetch -/

/-- What a fetch reads and what it leaves (R90). -/
theorem State.fetch_eq (s : State) : s.fetch = (s.wordAtPC, s.writePC (s.pc + 2)) := by
  have h1 : addr12 (s.pc.toNat + 1) = s.pc + 1 := addr12_toNat_add s.pc 1
  have h2 : addr12 ((s.pc + 1).toNat + 1) = s.pc + 2 := by
    rw [addr12_toNat_add, BitVec.add_assoc]; rfl
  simp only [State.fetch, State.fetchByte, State.wordAtPC, wordOfBytes, State.readByte_writePC, State.writePC_pc, h1, h2]
  rfl

/-- A fetch reads the word just placed at PC. -/
theorem State.wordAtPC_withFetchWord {s : State} (h : Memory.wf s.mem = true) (w : Word) :
    (s.withFetchWord 16 w.toNat).wordAtPC = w := by
  have hne : s.pc ≠ s.pc + 1 := by
    intro e
    have := congrArg BitVec.toNat e
    have := s.pc.isLt
    simp at *
    try omega
  have h1 : addr12 (s.pc.toNat + 1) = s.pc + 1 := addr12_toNat_add s.pc 1
  have hr : ∀ a, (s.withFetchWord 16 w.toNat).readByte a =
      ((s.writeByte s.pc (highByte w)).writeByte (s.pc + 1) (lowByte w)).readByte a := fun a => by
    simp only [State.withFetchWord, tableWord_sixteen, h1]; rfl
  have hp : (s.withFetchWord 16 w.toNat).pc = s.pc := rfl
  rw [State.wordAtPC, hr, hr, hp, State.readByte_writeByte (State.wf_writeByte h _ _), State.readByte_writeByte h,
    State.readByte_writeByte (State.wf_writeByte h _ _), if_neg hne, if_pos rfl, if_pos rfl]
  exact wordOfBytes_bytes w

/-! ## exec -/

/-- `t` is `s` but for what instructions write when nothing is raised, within the bounds the invariant names. -/
def ExecutedFrom (s t : State) : Prop :=
  t = { s with v := t.v, pc := t.pc, i := t.i, stack := t.stack, fb := t.fb } ∧
  (s.fb.length = s.cfg.cells → t.fb.length = s.cfg.cells) ∧
  (s.i.toNat < 4096 → t.i.toNat < 4096) ∧
  ((∀ d, s.cfg.stackDepth.limit = some d → s.stack.length ≤ d) → ∀ d, s.cfg.stackDepth.limit = some d → t.stack.length ≤ d)

/-! What execute leaves alone when nothing is raised, field by field. -/

theorem ExecutedFrom.mem {s t : State} (h : ExecutedFrom s t) : t.mem = s.mem := by rw [h.1]

theorem ExecutedFrom.runState {s t : State} (h : ExecutedFrom s t) : t.runState = s.runState := by rw [h.1]

theorem ExecutedFrom.errKind {s t : State} (h : ExecutedFrom s t) : t.errKind = s.errKind := by rw [h.1]

theorem ExecutedFrom.errAddr {s t : State} (h : ExecutedFrom s t) : t.errAddr = s.errAddr := by rw [h.1]

theorem ExecutedFrom.errOpcode {s t : State} (h : ExecutedFrom s t) : t.errOpcode = s.errOpcode := by rw [h.1]

theorem ExecutedFrom.cfg {s t : State} (h : ExecutedFrom s t) : t.cfg = s.cfg := by rw [h.1]

theorem ExecutedFrom.sinkOpen {s t : State} (h : ExecutedFrom s t) : t.sinkOpen = s.sinkOpen := by rw [h.1]

theorem ExecutedFrom.pending {s t : State} (h : ExecutedFrom s t) : t.pending = s.pending := by rw [h.1]

theorem ExecutedFrom.fbUpdates {s t : State} (h : ExecutedFrom s t) : t.fbUpdates = s.fbUpdates := by rw [h.1]

theorem ExecutedFrom.lastFrame {s t : State} (h : ExecutedFrom s t) : t.lastFrame = s.lastFrame := by rw [h.1]

/-- S is full exactly when a finite STACK_DEPTH is reached (R108). -/
theorem State.stackFull_iff (s : State) :
    s.stackFull = true ↔ ∃ d, s.cfg.stackDepth.limit = some d ∧ s.stack.length = d := by
  unfold State.stackFull
  split
  · simp [*]
  · simp [*, eq_comm (a := s.stack.length)]

/-- An instruction that writes only registers, PC and the framebuffer's contents is executed within bounds. -/
theorem ExecutedFrom.of_simple {s t : State} (h : t = { s with v := t.v, pc := t.pc, fb := t.fb })
    (hfb : t.fb.length = s.fb.length ∨ t.fb.length = s.cfg.cells) : ExecutedFrom s t := by
  have hi : t.i = s.i := by rw [h]
  have hst : t.stack = s.stack := by rw [h]
  refine ⟨by rw [h], fun hs => ?_, fun hs => by rw [hi]; exact hs, fun hs d hd => by rw [hst]; exact hs d hd⟩
  rcases hfb with e | e
  · rw [e, hs]
  · exact e

theorem executedFrom_skipIf (s : State) (c : Bool) : ExecutedFrom s (s.skipIf c) := by
  rw [State.skipIf_eq]
  exact .of_simple rfl (.inl rfl)

/-- How execute of `i` can get from `s` to `t`: write within bounds, or raise one of two fatal conditions before any other
write (R94, R106, R108, R168). -/
def ExecCase (i : Instr) (s t : State) : Prop :=
  (ExecutedFrom s t ∧ (i = .ret → s.stack ≠ []) ∧ (∀ nnn, i = .call nnn → s.stackFull = false)) ∨
  (i = .ret ∧ s.stack = [] ∧ t = s.raise .stackUnderflow (s.pc - 2) 0x00EE) ∨
  (∃ nnn, i = .call nnn ∧ s.stackFull = true ∧ t = s.raise .stackOverflow (s.pc - 2) (0x2#4 ++ nnn))

/-- An instruction other than Return and Call raises nothing. -/
theorem ExecCase.of_executed {i : Instr} {s t : State} (h : ExecutedFrom s t) (hr : i ≠ .ret) (hc : ∀ nnn, i ≠ .call nnn) :
    ExecCase i s t :=
  .inl ⟨h, fun e => absurd e hr, fun nnn e => absurd e (hc nnn)⟩

theorem execReturn_cases (s : State) : ∃ t, execReturn s = .next t ∧ ExecCase .ret s t := by
  rw [execReturn]
  cases hst : s.stack with
  | nil => exact ⟨_, rfl, .inr (.inl ⟨rfl, hst, by rw [State.fetchAddress_eq]; rfl⟩)⟩
  | cons top rest =>
    refine ⟨_, rfl, .inl ⟨⟨rfl, fun h => h, fun h => h, fun h d hd => ?_⟩, fun _ => by simp [hst], fun nnn e => nomatch e⟩⟩
    have := h d hd
    simp only [hst, State.writePC_stack, State.withStack_stack, List.length_cons] at this ⊢
    omega

theorem execCall_cases (nnn : Addr) (s : State) : ∃ t, execCall nnn s = .next t ∧ ExecCase (.call nnn) s t := by
  rw [execCall]
  by_cases hf : s.stackFull = true
  · rw [if_pos hf, State.fetchAddress_eq]
    exact ⟨_, rfl, .inr (.inr ⟨nnn, rfl, hf, rfl⟩)⟩
  · rw [if_neg hf]
    refine ⟨_, rfl, .inl ⟨⟨rfl, fun h => h, fun h => h, fun h d hd => ?_⟩, (fun e => nomatch e), fun _ _ => by simpa using hf⟩⟩
    have hne : s.stack.length ≠ d := fun e => hf ((State.stackFull_iff s).2 ⟨d, hd, e⟩)
    have := h d hd
    simp only [State.writePC_stack, State.push_stack, List.length_cons]
    omega

theorem executedFrom_writeI (s : State) (nnn : Addr) : ExecutedFrom s (s.writeI (immediateI nnn)) := by
  refine ⟨rfl, fun h => h, fun _ => ?_, fun h => h⟩
  have := nnn.isLt
  simp only [State.writeI_i, immediateI, BitVec.truncate_eq_setWidth, BitVec.toNat_setWidth]
  omega

theorem executedFrom_draw (s : State) (x : Reg) (c0 r0 k : Nat) :
    ExecutedFrom s (drawRows x c0 r0 k 0 (s.writeV regVF 0x00)) := by
  have hd : DrawnFrom s (drawRows x c0 r0 k 0 (s.writeV regVF 0x00)) :=
    (drawnFrom_writeVF s 0x00).trans (drawnFrom_drawRows x c0 r0 k 0 _)
  have hpc : (drawRows x c0 r0 k 0 (s.writeV regVF 0x00)).pc = s.pc := by rw [hd.1]
  exact .of_simple (by rw [hpc]; exact hd.1) (.inl hd.2.1)

/-- Execute always answers a next state, by one of those cases. -/
theorem exec_cases (i : Instr) (s : State) : ∃ t, exec i s = .next t ∧ ExecCase i s t := by
  have wrote {t : State} (he : exec i s = .next t) (h : t = { s with v := t.v, pc := t.pc, fb := t.fb })
      (hfb : t.fb.length = s.fb.length ∨ t.fb.length = s.cfg.cells)
      (hr : i ≠ .ret) (hc : ∀ nnn, i ≠ .call nnn) : ∃ t, exec i s = .next t ∧ ExecCase i s t :=
    ⟨t, he, .of_executed (.of_simple h hfb) hr hc⟩
  cases i with
  | ret => exact execReturn_cases s
  | call nnn => exact execCall_cases nnn s
  | setIRegister nnn => exact ⟨_, rfl, .of_executed (executedFrom_writeI s nnn) (by simp) (by simp)⟩
  | draw x y n => exact ⟨_, rfl, .of_executed (executedFrom_draw s x _ _ _) (by simp) (by simp)⟩
  | skipIfEqual x nn => exact ⟨_, rfl, .of_executed (executedFrom_skipIf s _) (by simp) (by simp)⟩
  | skipIfNotEqual x nn => exact ⟨_, rfl, .of_executed (executedFrom_skipIf s _) (by simp) (by simp)⟩
  | skipIfEqualXY x y => exact ⟨_, rfl, .of_executed (executedFrom_skipIf s _) (by simp) (by simp)⟩
  | skipIfNotEqualXY x y => exact ⟨_, rfl, .of_executed (executedFrom_skipIf s _) (by simp) (by simp)⟩
  | clearScreen => exact wrote rfl rfl (.inr (by simp)) (by simp) (by simp)
  | jump nnn => exact wrote rfl rfl (.inl rfl) (by simp) (by simp)
  | setVX x nn => exact wrote rfl rfl (.inl rfl) (by simp) (by simp)
  | addVX x nn => exact wrote rfl rfl (.inl rfl) (by simp) (by simp)
  | setVXToVY x y => exact wrote rfl rfl (.inl rfl) (by simp) (by simp)
  | orVXVY x y => exact wrote rfl rfl (.inl rfl) (by simp) (by simp)
  | andVXVY x y => exact wrote rfl rfl (.inl rfl) (by simp) (by simp)
  | xorVXVY x y => exact wrote rfl rfl (.inl rfl) (by simp) (by simp)
  | addVYToVX x y => exact wrote rfl rfl (.inl rfl) (by simp) (by simp)
  | subVYFromVX x y => exact wrote rfl rfl (.inl rfl) (by simp) (by simp)
  | shiftRight x y => exact wrote rfl rfl (.inl rfl) (by simp) (by simp)
  | subVXFromVY x y => exact wrote rfl rfl (.inl rfl) (by simp) (by simp)
  | shiftLeft x y => exact wrote rfl rfl (.inl rfl) (by simp) (by simp)

/-! ## A cycle and a step -/

/-- A step that grants a cycle is that cycle (R86, R103). -/
theorem step_of_grantsCycle {s : State} {rest : List PortEvent} (h : s.grantsCycle rest) :
    step s = cycle { s with pending := rest } := by
  rcases h with ⟨h, rfl⟩ | h
  · rw [step, h]; dsimp only; rw [← h]
  · rw [step, h]; rfl

/-- A cycle in RUNNING with the sink open fetches, decodes and executes (R90 to R94). -/
theorem cycle_open {u : State} (hr : u.runState = .running) (ho : u.sinkOpen = true) :
    cycle u = match decodeWord u.wordAtPC with
      | .ok i => executeAndPresent i (u.writePC (u.pc + 2))
      | .error _ => .next ((u.writePC (u.pc + 2)).raise .decodeError u.pc u.wordAtPC) := by
  rw [cycle, hr]
  simp only [ho, if_true, runInstruction, State.fetch_eq]
  all_goals (cases decodeWord u.wordAtPC <;> rfl)

/-- A cycle in RUNNING with the sink closed stops the run (R97). -/
theorem cycle_closed {u : State} (hr : u.runState = .running) (ho : u.sinkOpen = false) :
    cycle u = .next { u with runState := .stopped } := by
  rw [cycle, hr]
  simp [ho]

/-- A `cycle_req` has no effect in any other run state (R89). -/
theorem cycle_not_running {u : State} (hr : u.runState ≠ .running) : cycle u = .next u := by
  rw [cycle]
  cases h : u.runState <;> simp_all

/-- A step that takes a cycle fetches, decodes and executes (R90 to R94). -/
theorem step_of_takesCycle {s : State} {rest : List PortEvent} (h : s.takesCycle rest) :
    step s = match decodeWord s.wordAtPC with
      | .ok i => executeAndPresent i (s.atExecute rest)
      | .error _ => .next ((s.atExecute rest).raise .decodeError s.pc s.wordAtPC) :=
  (step_of_grantsCycle h.1).trans (cycle_open h.2.1 h.2.2)

/-- A port event that is no cycle (R86, R89, R98, R101, R185). -/
theorem step_of_event {s : State} {e : PortEvent} {rest : List PortEvent} (h : s.pending = e :: rest) :
    step s = portEvent e { s with pending := rest } := by rw [step, h]

/-- Every state either grants a cycle or has another port event next. -/
theorem grantsCycle_or_event (s : State) :
    (∃ rest, s.grantsCycle rest) ∨ ∃ e rest, e ≠ .cycleReq ∧ s.pending = e :: rest := by
  cases h : s.pending with
  | nil => exact .inl ⟨[], .inl ⟨h, rfl⟩⟩
  | cons e rest =>
    by_cases he : e = .cycleReq
    · exact .inl ⟨rest, .inr (he ▸ h)⟩
    · exact .inr ⟨e, rest, he, rfl⟩

/-- Everything one cycle that runs can do, in its next state (R92, R95, R168). -/
theorem takesCycle_cases {s t : State} {rest : List PortEvent} (h : s.takesCycle rest) (ht : step s = .next t) :
    (∃ u, ExecutedFrom (s.atExecute rest) u ∧ t = u.present) ∨
    (∃ e, decodeWord s.wordAtPC = .error e) ∧ t = (s.atExecute rest).raise .decodeError s.pc s.wordAtPC ∨
    decodeWord s.wordAtPC = .ok .ret ∧ s.stack = [] ∧
      t = (s.atExecute rest).raise .stackUnderflow s.pc 0x00EE ∨
    ∃ nnn, decodeWord s.wordAtPC = .ok (.call nnn) ∧ s.stackFull = true ∧
      t = (s.atExecute rest).raise .stackOverflow s.pc (0x2#4 ++ nnn) := by
  rw [step_of_takesCycle h] at ht
  cases hdec : decodeWord s.wordAtPC with
  | error e =>
    rw [hdec] at ht
    exact .inr (.inl ⟨⟨e, rfl⟩, (Host.Outcome.next.inj ht).symm⟩)
  | ok i =>
    rw [hdec] at ht
    dsimp only [executeAndPresent] at ht
    have hpc : (s.atExecute rest).pc - 2 = s.pc := by
      rw [← State.fetchAddress_eq, State.fetchAddress_atExecute]
    obtain ⟨u, hu, hcase⟩ := exec_cases i (s.atExecute rest)
    rw [hu] at ht
    have ht : presentUnlessFaulted u = t := Host.Outcome.next.inj ht
    rcases hcase with ⟨hx, _, _⟩ | ⟨rfl, hst, rfl⟩ | ⟨nnn, rfl, hf, rfl⟩
    · have hur : u.runState = .running := by rw [hx.1]; exact h.2.1
      rw [presentUnlessFaulted, if_neg (by rw [hur]; decide)] at ht
      exact .inl ⟨u, hx, ht.symm⟩
    · rw [presentUnlessFaulted, if_pos (State.raise_runState ..), hpc] at ht
      exact .inr (.inr (.inl ⟨rfl, hst, ht.symm⟩))
    · rw [presentUnlessFaulted, if_pos (State.raise_runState ..), hpc] at ht
      exact .inr (.inr (.inr ⟨nnn, rfl, hf, ht.symm⟩))

/-! ## Runs of several steps -/

/-- The first step of a run, and the steps after it. -/
theorem run_succ {M : Host.Core} {k : Nat} {s t : M.State} (h : M.step s = .next t) : M.run (k + 1) s = M.run k t := by
  rw [Host.Core.run, h]

/-- A run put together from two. -/
theorem run_add {M : Host.Core} {a b : Nat} {s t : M.State} (h : M.run a s = .next t) : M.run (a + b) s = M.run b t := by
  induction a generalizing s with
  | zero => cases h; rw [Nat.zero_add]
  | succ a ih =>
    rw [Nat.succ_add]
    rw [Host.Core.run] at h ⊢
    cases hs : M.step s with
    | next u => rw [hs] at h; exact ih h
    | fault r => rw [hs] at h; cases h
    | refused r => rw [hs] at h; cases h

end Sys2Proof.Machine
end

