-- ==== Sys2Proof/Tests/Slice0.lean ====
section
/-! SUPPORT. The model's own tests: the WellFormed smoke, decoding of words written out in the spec, one-step vectors of
spec/95_test_vectors.md (each named in its docstring), and for every statement with hypotheses a state that meets them. -/

namespace Sys2Proof.Tests

open Sys2Proof Sys2Proof.Machine

/-! ## Helpers -/

/-- A 16 × 4 display, a stack of one entry, `VY_SOURCE`, `LATCHED`. -/
def smallConfig : Config :=
  { displayWLog := 4, displayHLog := 2, stackDepth := .finite 0, compatMode := .vySource, drawColumnSource := .latched }

/-- `smallConfig` with an unbounded stack, `VX_IN_PLACE` and `REREAD`. -/
def otherConfig : Config :=
  { smallConfig with stackDepth := .unbounded, compatMode := .vxInPlace, drawColumnSource := .reread }

/-- RUNNING right after reset, with the parameters `c`. -/
def running (c : Config) : State := { State.resetWith c with runState := .running }

/-- About to run the word `w`, from `s`. -/
def at16 (w : Nat) (s : State) : State := s.withFetchWord 16 w

/-- The outcome is a next state, and `p` holds of it. -/
def answersNext (o : StepOutcome) (p : State → Bool) : Bool :=
  match o with
  | .next t => p t
  | .fault _ => false
  | .refused _ => false

/-- The cells of `row` that are on, among the first `k` columns. -/
def rowOn (t : State) (row k : Nat) : List Nat := (List.range k).filter (fun col => t.pixel row col)

/-- The word is refused, for the reason `e`. -/
def refusedAs (w : Word) (e : DecodeReject) : Bool :=
  match decodeWord w with
  | .ok _ => false
  | .error e' => e' == e

/-! ## WellFormed: what the checks refuse -/

/-- The illegal words of 95_test_vectors.md section 2 match no row of the table (R77). -/
theorem test_wf_illegal_words :
    [0x0000, 0x00E1, 0x01E0, 0x0FFF, 0x5121, 0x512F, 0x8128, 0x8129, 0x812A, 0x812B, 0x812C, 0x812D, 0x812F, 0x9AB1,
      0xB123, 0xC0FF, 0xE09E, 0xF00A, 0xFFFF].all (fun w => !legalWord (BitVec.ofNat 16 w)) = true := by decide

/-- An image of 3584 bytes fits, one of 3585 does not (R51). -/
theorem test_wf_image_length : imageFits (List.replicate 0xE00 0x00) = true ∧ imageFits (List.replicate 0xE01 0x00) = false := by
  rw [imageFits, imageFits, List.length_replicate, List.length_replicate]; decide

/-- A display size that is 0 or no power of two is refused (R9). -/
theorem test_wf_display_size : Config.ofParameters? 0 32 none .vySource .latched = none ∧
    Config.ofParameters? 64 24 none .vySource .latched = none ∧
    Config.ofParameters? 64 32 none .vySource .latched = some Config.recommended := by decide

/-- A finite stack depth of 0 is refused (R10). -/
theorem test_wf_stack_depth : Config.ofParameters? 16 4 (some 0) .vySource .latched = none ∧
    Config.ofParameters? 16 4 (some 1) .vySource .latched = some smallConfig := by decide

/-! ## Decode: words written out in 95_test_vectors.md section 2 -/

theorem test_decode_family_0 : decodeTableWord 16 0x00E0 = some .clearScreen ∧ decodeTableWord 16 0x00EE = some .ret := by
  decide

theorem test_decode_jump_call : decodeTableWord 16 0x1ABC = some (.jump 0xABC) ∧ decodeTableWord 16 0x1FFF = some (.jump 0xFFF) ∧
    decodeTableWord 16 0x2000 = some (.call 0x000) ∧ decodeTableWord 16 0x2FFF = some (.call 0xFFF) := by decide

theorem test_decode_skips : decodeTableWord 16 0x3FFF = some (.skipIfEqual 0xF 0xFF) ∧
    decodeTableWord 16 0x4A5B = some (.skipIfNotEqual 0xA 0x5B) ∧ decodeTableWord 16 0x5120 = some (.skipIfEqualXY 1 2) ∧
    decodeTableWord 16 0x9AB0 = some (.skipIfNotEqualXY 0xA 0xB) := by decide

theorem test_decode_immediates : decodeTableWord 16 0x6000 = some (.setVX 0 0x00) ∧ decodeTableWord 16 0x6FFF = some (.setVX 0xF 0xFF) ∧
    decodeTableWord 16 0x7F01 = some (.addVX 0xF 0x01) ∧ decodeTableWord 16 0xA000 = some (.setIRegister 0x000) ∧
    decodeTableWord 16 0xAFFF = some (.setIRegister 0xFFF) := by decide

theorem test_decode_family_8 : decodeTableWord 16 0x8120 = some (.setVXToVY 1 2) ∧ decodeTableWord 16 0x8121 = some (.orVXVY 1 2) ∧
    decodeTableWord 16 0x8122 = some (.andVXVY 1 2) ∧ decodeTableWord 16 0x8123 = some (.xorVXVY 1 2) ∧
    decodeTableWord 16 0x8124 = some (.addVYToVX 1 2) ∧ decodeTableWord 16 0x8125 = some (.subVYFromVX 1 2) ∧
    decodeTableWord 16 0x8126 = some (.shiftRight 1 2) ∧ decodeTableWord 16 0x8127 = some (.subVXFromVY 1 2) ∧
    decodeTableWord 16 0x812E = some (.shiftLeft 1 2) := by decide

theorem test_decode_draw : decodeTableWord 16 0xD000 = some (.draw 0 0 0) ∧ decodeTableWord 16 0xD12F = some (.draw 1 2 0xF) := by
  decide

/-- Each illegal class is refused by its name. -/
theorem test_decode_refuses : refusedAs 0x0000 .illegalFamily0 ∧ refusedAs 0x01E0 .illegalFamily0 ∧ refusedAs 0x5121 .illegalLowNibble ∧
    refusedAs 0x9AB1 .illegalLowNibble ∧ refusedAs 0x8128 .illegalFunction ∧ refusedAs 0x812F .illegalFunction ∧
    refusedAs 0xB123 .illegalFamily ∧ refusedAs 0xC0FF .illegalFamily ∧ refusedAs 0xE09E .illegalFamily ∧
    refusedAs 0xFFFF .illegalFamily := by decide

/-- One byte is no word (R65). -/
theorem test_decode_truncated : (match decodeBytes [0x12] with | .ok _ => false | .error e => e == .truncated) = true := by decide

/-! ## Control transfer: vectors CF and FC -/

/-- CF11. -/
theorem test_ret_pops : answersNext (exec .ret { running smallConfig with pc := 0x30E, stack := [0x206] })
    (fun t => t.pc == 0x206 && t.stack == []) = true := by decide

/-- FC8: StackUnderflow. -/
theorem test_ret_underflow : answersNext (step (at16 0x00EE { running smallConfig with pc := 0x204 }))
    (fun t => t.runState == .faulted && t.errKindPort == 2 && t.errAddr == 0x204 && t.errOpcode == 0x00EE && t.pc == 0x206) = true := by
  decide

/-- FC1: one `fb_update`. -/
theorem test_jump : answersNext (step (at16 0x1234 (running smallConfig)))
    (fun t => t.pc == 0x234 && t.fbUpdates == 1) = true := by decide

/-- FC4: the pushed address wraps. -/
theorem test_call_pushes : answersNext (step (at16 0x2300 { running smallConfig with pc := 0xFFE }))
    (fun t => t.stack == [0x000] && t.pc == 0x300) = true := by decide

/-- FC9: StackOverflow. -/
theorem test_call_overflow : answersNext (step (at16 0x2310 { running smallConfig with pc := 0x300, stack := [0x202] }))
    (fun t => t.errKindPort == 4 && t.errAddr == 0x300 && t.errOpcode == 0x2310 && t.stack == [0x202] && t.pc == 0x302) = true := by
  decide

/-- FC3: the skip passes the top of memory. -/
theorem test_skipIfEqual_wraps : answersNext (step (at16 0x3000 { running smallConfig with pc := 0xFFE }))
    (fun t => t.pc == 0x002) = true := by decide

/-- CF2. -/
theorem test_skipIfEqual_not_taken : answersNext (step (at16 0x3012 ((running smallConfig).writeV 0 0x13)))
    (fun t => t.pc == 0x202) = true := by decide

/-- CF3. -/
theorem test_skipIfNotEqual_taken : answersNext (step (at16 0x4301 { running smallConfig with pc := 0x204 }))
    (fun t => t.pc == 0x208) = true := by decide

/-- CF5. -/
theorem test_skipIfEqualXY_taken : answersNext (step (at16 0x5120 (((running smallConfig).writeV 1 0x7F).writeV 2 0x7F)))
    (fun t => t.pc == 0x204) = true := by decide

/-- CF7. -/
theorem test_skipIfNotEqualXY_taken : answersNext (step (at16 0x9120 (((running smallConfig).writeV 1 0x01).writeV 2 0x02)))
    (fun t => t.pc == 0x204) = true := by decide

/-- CF8: x = y. -/
theorem test_skipIfNotEqualXY_same : answersNext (step (at16 0x9110 ((running smallConfig).writeV 1 0x01)))
    (fun t => t.pc == 0x202) = true := by decide

/-! ## Registers and arithmetic: vectors S and AL -/

/-- FC2: the word wraps from 0xFFF to 0x000. -/
theorem test_setVX : answersNext (step (at16 0x6005 { running smallConfig with pc := 0xFFF }))
    (fun t => t.readV 0 == 0x05 && t.pc == 0x001) = true := by decide

/-- AL2: wraps, no flag. -/
theorem test_addVX_no_flag : answersNext (step (at16 0x7001 (((running smallConfig).writeV 0 0xFF).writeV 0xF 0x55)))
    (fun t => t.readV 0 == 0x00 && t.readV 0xF == 0x55) = true := by decide

/-- AL5. -/
theorem test_setVXToVY : answersNext (step (at16 0x8120 ((running smallConfig).writeV 2 0x99)))
    (fun t => t.readV 1 == 0x99 && t.readV 2 == 0x99) = true := by decide

/-- AL6. -/
theorem test_orVXVY : answersNext (step (at16 0x8121 ((((running smallConfig).writeV 1 0xF0).writeV 2 0x0F).writeV 0xF 0x07)))
    (fun t => t.readV 1 == 0xFF && t.readV 0xF == 0x07) = true := by decide

/-- AL7. -/
theorem test_andVXVY : answersNext (step (at16 0x8122 (((running smallConfig).writeV 1 0xF0).writeV 2 0x3C)))
    (fun t => t.readV 1 == 0x30) = true := by decide

/-- AL8. -/
theorem test_xorVXVY : answersNext (step (at16 0x8123 (((running smallConfig).writeV 1 0xF0).writeV 2 0x3C)))
    (fun t => t.readV 1 == 0xCC) = true := by decide

/-- S4. -/
theorem test_addVYToVX_carry : answersNext (step (at16 0x8124 (((running smallConfig).writeV 1 0xFE).writeV 2 0x03)))
    (fun t => t.readV 1 == 0x01 && t.readV 0xF == 0x01) = true := by decide

/-- AL14: y = F reads the old VF. -/
theorem test_addVYToVX_from_VF : answersNext (step (at16 0x81F4 (((running smallConfig).writeV 1 0x10).writeV 0xF 0x01)))
    (fun t => t.readV 1 == 0x11 && t.readV 0xF == 0x00) = true := by decide

/-- S5. -/
theorem test_subVYFromVX_borrow : answersNext (step (at16 0x8125 (((running smallConfig).writeV 1 0x05).writeV 2 0x08)))
    (fun t => t.readV 1 == 0xFD && t.readV 0xF == 0x00) = true := by decide

/-- AL18: x = F keeps the flag only. -/
theorem test_subVYFromVX_to_VF : answersNext (step (at16 0x8F15 (((running smallConfig).writeV 1 0x20).writeV 0xF 0x10)))
    (fun t => t.readV 0xF == 0x00) = true := by decide

/-- AL19. -/
theorem test_subVXFromVY_borrow : answersNext (step (at16 0x8127 (((running smallConfig).writeV 1 0x08).writeV 2 0x05)))
    (fun t => t.readV 1 == 0xFD && t.readV 0xF == 0x00) = true := by decide

/-- AL21: equality is no borrow. -/
theorem test_subVXFromVY_equal : answersNext (step (at16 0x8117 ((running smallConfig).writeV 1 0x42)))
    (fun t => t.readV 1 == 0x00 && t.readV 0xF == 0x01) = true := by decide

/-- AL22: `VY_SOURCE`. -/
theorem test_shiftRight_vySource : answersNext (step (at16 0x8106 ((running smallConfig).writeV 0 0x81)))
    (fun t => t.readV 1 == 0x40 && t.readV 0xF == 0x01) = true := by decide

/-- AL24: `VX_IN_PLACE`. -/
theorem test_shiftRight_vxInPlace : answersNext (step (at16 0x8106 ((running otherConfig).writeV 1 0x02)))
    (fun t => t.readV 1 == 0x01 && t.readV 0xF == 0x00) = true := by decide

/-- AL26: `VY_SOURCE`. -/
theorem test_shiftLeft_vySource : answersNext (step (at16 0x810E ((running smallConfig).writeV 0 0x81)))
    (fun t => t.readV 1 == 0x02 && t.readV 0xF == 0x01) = true := by decide

/-- AL28: `VX_IN_PLACE`. -/
theorem test_shiftLeft_vxInPlace : answersNext (step (at16 0x810E ((running otherConfig).writeV 1 0x80)))
    (fun t => t.readV 1 == 0x00 && t.readV 0xF == 0x01) = true := by decide

/-! ## The index register and the framebuffer: vectors DR -/

/-- DR0. -/
theorem test_setIRegister : answersNext (step (at16 0xA123 (running smallConfig))) (fun t => t.i == 0x0123) = true := by decide

/-- DR14: VF is no part of it. -/
theorem test_clearScreen : answersNext
    (step (at16 0x00E0 ({ running smallConfig with fb := List.replicate 64 true }.writeV 0xF 0x33)))
    (fun t => t.fb == List.replicate 64 false && t.readV 0xF == 0x33) = true := by decide

/-- A sprite of two full rows at 0x300, about to be drawn by D012. -/
def twoRows (c : Config) : State :=
  { ((running c).writeByte 0x300 0xFF).writeByte 0x301 0xFF with i := 0x300 }

/-- DR15: an 8 × 4 display, coordinates by mod, clipped on the right. -/
theorem test_draw_wraps_start_and_clips : answersNext
    (step (at16 0xD012 (((twoRows { smallConfig with displayWLog := 3 }).writeV 0 0x0A).writeV 1 0x06)))
    (fun t => rowOn t 0 8 == [] && rowOn t 1 8 == [] && rowOn t 2 8 == [2, 3, 4, 5, 6, 7] && rowOn t 3 8 == [2, 3, 4, 5, 6, 7] &&
      t.readV 0xF == 0x00) = true := by decide

/-- DR10 and DR11: x = F, `LATCHED` against `REREAD`. -/
theorem test_draw_column_source :
    answersNext (step (at16 0xDF12 ((twoRows smallConfig).writeV 0xF 0x08)))
      (fun t => rowOn t 0 16 == [8, 9, 10, 11, 12, 13, 14, 15] && rowOn t 1 16 == [8, 9, 10, 11, 12, 13, 14, 15]) = true ∧
    answersNext (step (at16 0xDF12 ((twoRows otherConfig).writeV 0xF 0x08)))
      (fun t => rowOn t 0 16 == [0, 1, 2, 3, 4, 5, 6, 7] && rowOn t 1 16 == [0, 1, 2, 3, 4, 5, 6, 7]) = true := by decide

/-! ## The cycle and the ports: vectors FC -/

/-- FC7: memory all zero after reset. -/
theorem test_decode_error : answersNext (step (running smallConfig))
    (fun t => t.runStatePort == 3 && t.errKindPort == 1 && t.errAddr == 0x200 && t.errOpcode == 0x0000 && t.pc == 0x202 &&
      t.fbUpdates == 0) = true := by decide

/-- FC11 and FC12. -/
theorem test_sink_closed : answersNext (step { running smallConfig with sinkOpen := false })
    (fun t => t.runStatePort == 2 && t.errKindPort == 0 && t.pc == 0x200 && t.fbUpdates == 0) = true := by decide

/-- FC13 and FC14: the loader port writes in IDLE only. -/
theorem test_loader_port :
    answersNext (step { State.resetWith smallConfig with pending := [.load 0x200 0xA2] })
      (fun t => t.readByte 0x200 == 0xA2 && t.pending == []) = true ∧
    answersNext (step { running smallConfig with pending := [.load 0x300 0x55] }) (fun t => t.readByte 0x300 == 0x00) = true := by
  decide

/-- `withFetchWord` on the reset state: the next step runs that word. -/
theorem test_withFetchWord : answersNext (step (State.reset.withFetchWord 16 0x6A42))
    (fun t => t.readV 0xA == 0x42 && t.pc == 0x202) = true := by decide

/-- A store of the unlisted value removes the entry, so equal memories are equal data. -/
theorem test_memory_canonical : (((State.reset.writeByte 0x300 0x55).writeByte 0x200 0xA2).writeByte 0x300 0x00).mem = [(0x200, 0xA2)] := by
  decide

/-! ## Witnesses: each statement's hypotheses are met -/

/-- A cycle runs from here. -/
theorem running_takesCycle (c : Config) (w : Nat) : (at16 w (running c)).takesCycle [] := ⟨.inl ⟨rfl, rfl⟩, rfl, rfl⟩

/-- `smallConfig` after `start`, with any word at PC: the invariant. -/
theorem running_inv : (at16 0x6A42 (running smallConfig)).Inv where
  memCanonical := by decide
  indexInRange := by decide
  fbShape := by decide
  frameShape := by intro f h; cases h
  frameCounted := by decide
  stackBounded := by intro depth _; exact Nat.zero_le depth
  faultedIff := by decide
  noErrorNoRecord := by decide
  noAddressRangeError := by decide
  decodeErrorWord := by decide
  underflowWord := by decide
  overflowWord := by decide
  idleIsReset := by intro h; cases h

theorem witness_EncodeGivesBackEveryDecodedWord : decodeWord 0xD12F = .ok (.draw 1 2 0xF) := rfl

theorem witness_DecodeFollowsTheOpcodeMap : (0x1E0 : Addr) ≠ 0x0E0 ∧ (0x1E0 : Addr) ≠ 0x0EE ∧ (0x1 : BitVec 4) ≠ 0 := by decide

/-- A FAULTED machine with every element off its reset value, about to be reset: ResetEventSetsEveryElement and
ResetEventKeepsParametersAndPorts. -/
theorem witness_ResetEvent : ∃ s : State, s.pending = .rst :: [.start] ∧ s.runState = .faulted ∧ s.readV 3 = 0x77 ∧ s.stack = [0x202] :=
  ⟨{ (running smallConfig).writeV 3 0x77 with
      runState := .faulted, errKind := .decodeError, errOpcode := 0xFFFF, stack := [0x202], pending := [.rst, .start] },
    rfl, rfl, by decide, rfl⟩

theorem witness_EveryStepKeepsTheInvariant : ∃ s t : State, s.Inv ∧ step s = .next t ∧ t.readV 0xA = 0x42 :=
  ⟨_, _, running_inv, rfl, by decide⟩

theorem witness_FetchReadsTwoBytesBigEndian :
    { running smallConfig with pc := 0xFFF }.pc = 0xFFF ∧ { running smallConfig with pc := 0xFFE }.pc = 0xFFE := ⟨rfl, rfl⟩

/-- Also for PCAfterEachInstruction and EverySuccessfulCyclePresentsTheFrame. -/
theorem witness_StepRunsTheDecodedInstruction : ∃ (s t : State) (i : Instr),
    s.takesCycle [] ∧ decodeWord s.wordAtPC = .ok i ∧ step s = .next t ∧ t.runState ≠ .faulted :=
  ⟨at16 0x6A42 (running smallConfig), _, _, running_takesCycle _ _, rfl, rfl, by decide⟩

/-- Granted by `cycle_req` with more to come. -/
theorem witness_takesCycle_by_cycleReq : ∃ s : State, s.takesCycle [.idle] ∧ decodeWord s.wordAtPC = .ok (.setVX 0xA 0x42) :=
  ⟨{ at16 0x6A42 (running smallConfig) with pending := [.cycleReq, .idle] }, ⟨.inr rfl, rfl, rfl⟩, rfl⟩

/-- A skip whose condition holds and one whose condition does not, as complete cycles. -/
theorem witness_PCAfterEachInstruction_skips : ∃ s t s' t' : State,
    (s.takesCycle [] ∧ decodeWord s.wordAtPC = .ok (.skipIfEqual 0 0x00) ∧ step s = .next t ∧ t.runState ≠ .faulted ∧
      s.readV 0 = 0x00) ∧
    (s'.takesCycle [] ∧ decodeWord s'.wordAtPC = .ok (.skipIfEqual 0 0x01) ∧ step s' = .next t' ∧ t'.runState ≠ .faulted ∧
      s'.readV 0 ≠ 0x01) :=
  ⟨at16 0x3000 (running smallConfig), _, at16 0x3001 (running smallConfig), _,
    ⟨running_takesCycle _ _, rfl, rfl, by decide, by decide⟩, ⟨running_takesCycle _ _, rfl, rfl, by decide, by decide⟩⟩

/-- Also for FatalCyclesArePrecise, the fatal clause of PCAfterEachInstruction and the first clause of CyclesFaultInExactlyThreeCases. -/
theorem witness_IllegalWordRaisesDecodeError : ∃ (s t : State) (e : DecodeReject),
    s.takesCycle [] ∧ decodeWord s.wordAtPC = .error e ∧ legalWord s.wordAtPC = false ∧ step s = .next t ∧ t.runState = .faulted :=
  ⟨at16 0xFFFF (running smallConfig), _, _, running_takesCycle _ _, rfl, by decide, rfl, rfl⟩

/-- ReturnOnEmptyStackRaisesUnderflow, and the second clause of CyclesFaultInExactlyThreeCases. -/
theorem witness_underflow_cycle : ∃ s t : State, s.takesCycle [] ∧ s.wordAtPC = 0x00EE ∧ s.stack = [] ∧ step s = .next t ∧
    t.runState = .faulted ∧ t.errKind = .stackUnderflow :=
  ⟨at16 0x00EE (running smallConfig), _, running_takesCycle _ _, by decide, rfl, rfl, rfl, rfl⟩

/-- CallOnFullStackRaisesOverflow, and the third clause of CyclesFaultInExactlyThreeCases. -/
theorem witness_overflow_cycle : ∃ s t : State, s.takesCycle [] ∧ s.wordAtPC = 0x2#4 ++ 0x310#12 ∧
    s.cfg.stackDepth.limit = some 1 ∧ s.stack.length = 1 ∧ step s = .next t ∧ t.runState = .faulted ∧ t.errKind = .stackOverflow :=
  ⟨at16 0x2310 { running smallConfig with stack := [0x202] }, _, ⟨.inl ⟨rfl, rfl⟩, rfl, rfl⟩, by decide, rfl, rfl, rfl, rfl, rfl⟩

/-- The first clause: a fault, with its cause (the two other causes: witness_underflow_cycle and witness_overflow_cycle). The
second clause: a FAULTED machine, and a cycle that raises nothing. -/
theorem witness_StatusRecordIsWrittenByTheFaultingCycleOnly : ∃ s t u v p q : State,
    ((∀ rest, s.pending ≠ .rst :: rest) ∧ step s = .next t ∧ s.runState ≠ .faulted ∧ t.runState = .faulted ∧
      s.hasCause .decodeError) ∧
    ((∀ rest, u.pending ≠ .rst :: rest) ∧ step u = .next v ∧ u.runState = .faulted) ∧
    ((∀ rest, p.pending ≠ .rst :: rest) ∧ step p = .next q ∧ q.runState ≠ .faulted) :=
  ⟨at16 0xFFFF (running smallConfig), _, { running smallConfig with runState := .faulted }, _, at16 0x6A42 (running smallConfig), _,
    ⟨(by intro rest h; cases h), rfl, by decide, rfl, (by unfold State.hasCause; decide)⟩,
    ⟨(by intro rest h; cases h), rfl, rfl⟩, ⟨(by intro rest h; cases h), rfl, by decide⟩⟩

theorem witness_NothingElsePresentsAFrame : ∃ s t : State, (∀ rest, ¬ s.takesCycle rest) ∧ step s = .next t :=
  ⟨State.reset, _, (by rintro rest ⟨-, h, -⟩; cases h), rfl⟩

/-- The machine here meets the invariant, so the last clause is not empty. -/
theorem witness_ClosedSinkStopsTheRun : ∃ s : State, s.grantsCycle [] ∧ s.runState = .running ∧ s.sinkOpen = false ∧ s.Inv :=
  ⟨{ at16 0x6A42 (running smallConfig) with sinkOpen := false }, .inl ⟨rfl, rfl⟩, rfl, rfl, { running_inv with }⟩

theorem witness_StartAndCycleRequestByRunState : ∃ s u v : State,
    (s.pending = [.start] ∧ s.runState = .idle) ∧ (u.pending = [.start] ∧ u.runState ≠ .idle) ∧
    (v.grantsCycle [] ∧ v.runState ≠ .running) :=
  ⟨{ State.reset with pending := [.start] }, { running smallConfig with pending := [.start] },
    { State.reset with pending := [.cycleReq] }, ⟨rfl, rfl⟩, ⟨rfl, by decide⟩, ⟨.inr rfl, by decide⟩⟩

theorem witness_LoaderPortWritesInIdleOnly : ∃ s u : State,
    (s.pending = [.load 0xFFF 0x00] ∧ Memory.wf s.mem = true ∧ s.runState = .idle ∧ s.readByte 0xFFF = 0x55) ∧
    (u.pending = [.load 0x300 0x55] ∧ Memory.wf u.mem = true ∧ u.runState ≠ .idle) :=
  ⟨{ State.reset.writeByte 0xFFF 0x55 with pending := [.load 0xFFF 0x00] }, { running smallConfig with pending := [.load 0x300 0x55] },
    ⟨rfl, by decide, rfl, by decide⟩, ⟨rfl, by decide, by decide⟩⟩

theorem witness_SinkLevelAndIdleChangeNothingElse : ∃ s u : State, s.pending = .sink false :: [.idle] ∧ u.pending = .idle :: [] :=
  ⟨{ State.reset with pending := [.sink false, .idle] }, { State.reset with pending := [.idle] }, rfl, rfl⟩

theorem witness_MemoryIsConstantWhileRunning : ∃ s t : State,
    s.runState = .running ∧ (∀ rest, s.pending ≠ .rst :: rest) ∧ step s = .next t ∧ s.readByte 0x200 = 0x6A :=
  ⟨at16 0x6A42 (running smallConfig), _, rfl, (by intro rest h; cases h), rfl, by decide⟩

/-- A transition out of each of IDLE and RUNNING, and a step in each of STOPPED and FAULTED. -/
theorem witness_RunStateTransitions : ∃ i i' r r' q q' p p' f f' : State,
    (step i = .next i' ∧ i.runState = .idle ∧ i'.runState = .running) ∧
    (step r = .next r' ∧ r.runState = .running ∧ r'.runState = .stopped) ∧
    (step q = .next q' ∧ q.runState = .running ∧ q'.runState = .faulted) ∧
    (step p = .next p' ∧ p.runState = .stopped) ∧ (step f = .next f' ∧ f.runState = .faulted) :=
  ⟨{ State.reset with pending := [.start] }, _, { running smallConfig with sinkOpen := false }, _, at16 0xFFFF (running smallConfig), _,
    { running smallConfig with runState := .stopped }, _, { running smallConfig with runState := .faulted }, _,
    ⟨rfl, rfl, rfl⟩, ⟨rfl, rfl, rfl⟩, ⟨rfl, rfl, rfl⟩, ⟨rfl, rfl⟩, ⟨rfl, rfl⟩⟩

theorem witness_SelfJumpKeepsRunningAndPresenting : ∃ s : State, s.takesCycle [] ∧ s.pending = [] ∧ s.wordAtPC = 0x1#4 ++ s.pc :=
  ⟨at16 0x1200 (running smallConfig), running_takesCycle _ _, rfl, by decide⟩

/-- A `rst` stands behind the `k` events: the steps before it are covered. -/
theorem witness_FaultedIsStickyWithoutReset : ∃ s : State, s.runState = .faulted ∧ .rst ∉ s.pending.take 2 ∧
    s.pending = [.start, .load 0 1, .rst] :=
  ⟨{ running smallConfig with runState := .faulted, pending := [.start, .load 0 1, .rst] }, rfl, by decide, rfl⟩

theorem witness_StoppedKeepsAllStateUntilReset : ∃ s : State, s.runState = .stopped ∧ .rst ∉ s.pending.take 3 ∧
    s.pending = [.cycleReq, .start, .sink true, .rst] :=
  ⟨{ running smallConfig with runState := .stopped, pending := [.cycleReq, .start, .sink true, .rst] }, rfl, by decide, rfl⟩

/-- An image of the greatest length that R51 allows. -/
theorem witness_BootLoadsTheImage : ∃ (s : State) (image : List Byte), imageFits image = true ∧ image.length = 0xE00 ∧
    s.pending = bootEvents image ++ [.idle] :=
  ⟨{ State.reset with pending := bootEvents (List.replicate 0xE00 0xA2) ++ [.idle] }, List.replicate 0xE00 0xA2,
    (by rw [imageFits, List.length_replicate]; decide), List.length_replicate, rfl⟩

theorem witness_EmptyImageRaisesDecodeError : ∃ s : State, s.pending = bootEvents [] ∧ s.sinkOpen = true :=
  ⟨{ State.reset with pending := bootEvents [] }, rfl, rfl⟩

theorem witness_ReturnPopsIntoPCOrUnderflows :
    { running smallConfig with stack := [0x206] }.stack = 0x206 :: [] ∧ (running smallConfig).stack = [] := ⟨rfl, rfl⟩

/-- The first clause on an unbounded stack and on a finite one that is not full; the second clause on a full one. -/
theorem witness_CallPushesAndJumpsOrOverflows :
    (∀ depth, (running otherConfig).cfg.stackDepth.limit = some depth → (running otherConfig).stack.length ≠ depth) ∧
    (∀ depth, (running smallConfig).cfg.stackDepth.limit = some depth → (running smallConfig).stack.length ≠ depth) ∧
    (∃ depth, { running smallConfig with stack := [0x202] }.cfg.stackDepth.limit = some depth ∧
      { running smallConfig with stack := [0x202] }.stack.length = depth) :=
  ⟨(by intro d h; cases h), (by intro d h; cases h; decide), ⟨1, rfl, rfl⟩⟩

/-- S9: the Call at 0x200 and the Return at 0x300. -/
theorem witness_CallThenReturnRoundTrip : ∃ s t u : State,
    s.takesCycle [] ∧ s.wordAtPC = 0x2#4 ++ 0x300#12 ∧ step s = .next t ∧ t.runState ≠ .faulted ∧
    u.takesCycle [] ∧ u.wordAtPC = 0x00EE ∧ u.stack = t.stack ∧ u.pc = t.pc :=
  ⟨(at16 0x2300 (running smallConfig)).writeByte 0x301 0xEE, _,
    { (at16 0x2300 (running smallConfig)).writeByte 0x301 0xEE with pc := 0x300, stack := [0x202] },
    ⟨.inl ⟨rfl, rfl⟩, rfl, rfl⟩, by decide, rfl, by decide, ⟨.inl ⟨rfl, rfl⟩, rfl, rfl⟩, by decide, by decide, by decide⟩

theorem witness_ShiftsFollowTheCompatibilityMode :
    ((running smallConfig).cfg.compatMode = .vySource ∧ (running smallConfig).shiftSource 1 0 = (running smallConfig).readV 0) ∧
    ((running otherConfig).cfg.compatMode = .vxInPlace ∧ (running otherConfig).shiftSource 1 0 = (running otherConfig).readV 1) :=
  ⟨⟨rfl, rfl⟩, ⟨rfl, rfl⟩⟩

theorem witness_ResultAndFlagAreTheExactArithmetic : ∃ s t u v : State, (1 : Reg) ≠ 0xF ∧ exec (.addVYToVX 1 2) s = .next t ∧
    exec (.subVYFromVX 1 2) s = .next u ∧ exec (.subVXFromVY 1 2) s = .next v :=
  ⟨((running smallConfig).writeV 1 0xFE).writeV 2 0x03, _, _, _, by decide, rfl, rfl, rfl⟩

/-! ### Draw -/

/-- DR8: cell (0, 0) is on, and the sprite's first row is 0xC0. -/
def onePixelOn (c : Config) : State := { (running c).writeByte 0x300 0xC0 with i := 0x300, fb := true :: List.replicate 63 false }

/-- Both clauses of the hypothesis, `LATCHED` with x = F and `REREAD` with x ≠ F, with a collision; and a Draw without one. -/
theorem witness_DrawComposesTheClippedSprite :
    ((onePixelOn smallConfig).fb.length = (onePixelOn smallConfig).cfg.cells ∧
      (onePixelOn smallConfig).cfg.drawColumnSource = .latched ∧
      (onePixelOn smallConfig).rowCollides 1 0 (fun _ => 0) 0) ∧
    ((onePixelOn otherConfig).fb.length = (onePixelOn otherConfig).cfg.cells ∧ (0 : Reg) ≠ 0xF ∧
      (onePixelOn otherConfig).rowCollides 1 0 (fun _ => 0) 0) ∧
    ((twoRows smallConfig).fb.length = (twoRows smallConfig).cfg.cells ∧
      ¬ ∃ row, row < (twoRows smallConfig).cfg.displayH ∧ (twoRows smallConfig).rowCollides 2 0 (fun _ => 0) row) := by
  refine ⟨⟨by decide, rfl, 0, by decide, by decide, by decide⟩, ⟨by decide, by decide, 0, by decide, by decide, by decide⟩, by decide, ?_⟩
  rintro ⟨row, hrow, col, hcol, h, -⟩
  have hall : ∀ r < 4, ∀ c < 16, (twoRows smallConfig).pixel r c = false := by decide
  rw [hall row hrow col hcol] at h
  cases h

/-- `REREAD`, with a first row that collides, so that the second starts at column 1. -/
theorem witness_DrawRereadStartsRowsAtTheCollisionFlag :
    (onePixelOn otherConfig).fb.length = (onePixelOn otherConfig).cfg.cells ∧
    (onePixelOn otherConfig).cfg.drawColumnSource = .reread ∧
    (onePixelOn otherConfig).rowCollides 2 0 (fun r => if r = 0 then 0 else 1) 0 ∧
    answersNext (exec (.draw 0xF 1 2) ((onePixelOn otherConfig).writeByte 0x301 0x80))
      (fun t => rowOn t 0 16 == [1] && rowOn t 1 16 == [1] && t.readV 0xF == 0x01) = true :=
  ⟨by decide, rfl, ⟨0, by decide, by decide, by decide⟩, by decide⟩

/-- From a blank framebuffer: a first Draw that changes it, and one that does not (n = 0). -/
theorem witness_DrawingTwiceRestoresTheFramebuffer : ∃ t u t' u' : State,
    (twoRows smallConfig).fb.length = (twoRows smallConfig).cfg.cells ∧
    (∀ row < 4, ∀ col < 16, (twoRows smallConfig).pixel row col = false) ∧
    (exec (.draw 0 1 2) (twoRows smallConfig) = .next t ∧ exec (.draw 0 1 2) t = .next u ∧ t.fb ≠ (twoRows smallConfig).fb) ∧
    (exec (.draw 0 1 0) (twoRows smallConfig) = .next t' ∧ exec (.draw 0 1 0) t' = .next u' ∧ t'.fb = (twoRows smallConfig).fb) :=
  ⟨_, _, _, _, by decide, by decide, ⟨rfl, rfl, by decide⟩, ⟨rfl, rfl, rfl⟩⟩

theorem witness_CompatModeAffectsOnlyTheShifts :
    (∀ x y, (Instr.addVYToVX 1 2) ≠ .shiftRight x y) ∧ (∀ x y, (Instr.addVYToVX 1 2) ≠ .shiftLeft x y) :=
  ⟨(by intro x y h; cases h), (by intro x y h; cases h)⟩

theorem witness_DrawColumnSourceAffectsOnlyDrawFromVF : ∀ y n, (Instr.draw 0 0xF 3) ≠ .draw 0xF y n := by
  intro y n h; cases h

theorem witness_ParametersAreConstant : ∃ s t : State, step s = .next t := ⟨State.reset, _, rfl⟩

end Sys2Proof.Tests
end

section
/-! PROOFS. What the two mode parameters, COMPAT_MODE (R12) and DRAW_COLUMN_SOURCE (R11), can and cannot change: executing
commutes with setting them, but for the shifts and a Draw with x = 0xF. -/

namespace Sys2Proof.Machine

/-- `s` under COMPAT_MODE `m` and DRAW_COLUMN_SOURCE `d`, its display sizes and STACK_DEPTH as they are. -/
def State.withModes (s : State) (m : CompatMode) (d : DrawColumnSource) : State :=
  { s with cfg := { s.cfg with compatMode := m, drawColumnSource := d } }

/-! ### The operations that commute with setting the modes -/

theorem State.skipIf_withModes (s : State) (m : CompatMode) (d : DrawColumnSource) (c : Bool) :
    (s.withModes m d).skipIf c = (s.skipIf c).withModes m d := by
  cases c <;> rfl

theorem composePixel_withModes (row col : Nat) (bit : Bool) (s : State) (m : CompatMode) (d : DrawColumnSource) :
    composePixel row col bit (s.withModes m d) = (composePixel row col bit s).withModes m d := by
  have hp : (s.withModes m d).pixel row col = s.pixel row col := rfl
  rw [composePixel_eq, composePixel_eq, hp]
  dsimp only
  split <;> rfl

theorem composeBits_withModes (row : Nat) (m : CompatMode) (d : DrawColumnSource) :
    ∀ (bits : List Bool) (col : Nat) (s : State),
      composeBits row bits col (s.withModes m d) = (composeBits row bits col s).withModes m d
  | [], _, _ => rfl
  | bit :: bits, col, s => by
    have hw : (s.withModes m d).cfg.displayW = s.cfg.displayW := rfl
    rw [composeBits, composeBits, hw, composePixel_withModes, composeBits_withModes row m d bits]
    split <;> rfl

/-- Sprite rows commute with setting the modes as long as, throughout the Draw, each row starts at the same column under
both settings (R147). -/
theorem drawRows_withModes (x : Reg) (c0 r0 : Nat) (m : CompatMode) (d : DrawColumnSource) : ∀ (k r : Nat) (s : State),
    (∀ t, DrawnFrom s t → (t.withModes m d).rowStart x c0 = t.rowStart x c0) →
    drawRows x c0 r0 k r (s.withModes m d) = (drawRows x c0 r0 k r s).withModes m d
  | 0, _, _, _ => rfl
  | k + 1, r, s, hstart => by
    have hh : (s.withModes m d).cfg.displayH = s.cfg.displayH := rfl
    have hb : (s.withModes m d).spriteByte r = s.spriteByte r := rfl
    have hd := drawnFrom_composeBits (r0 + r) (spriteBits (s.spriteByte r)) (s.rowStart x c0) s
    rw [drawRows, drawRows, hh, hb, hstart s (.refl s), composeBits_withModes,
      drawRows_withModes x c0 r0 m d k (r + 1) _ fun t ht => hstart t (hd.trans ht)]
    split <;> rfl

/-- In a Draw the column source does not matter when it stays the same, nor when V[x] is not VF: the Draw writes no other
register, so V[x] read again gives the column latched before the first row (R147). -/
theorem rowStart_withModes {x : Reg} {s t : State} (m : CompatMode) {d : DrawColumnSource} (h : DrawnFrom s t)
    (hd : d = s.cfg.drawColumnSource ∨ x ≠ 0xF) :
    (t.withModes m d).rowStart x (s.columnOf x) = t.rowStart x (s.columnOf x) := by
  rcases hd with rfl | hx
  · rw [← h.cfg]; rfl
  · have h' : DrawnFrom (s.withModes m d) (t.withModes m d) := ⟨by rw [h.1]; rfl, h.2⟩
    rw [rowStart_of_fixed h (.inr hx)]
    exact rowStart_of_fixed (s := s.withModes m d) h' (.inr hx)

theorem execDraw_withModes {x y : Reg} (n : BitVec 4) (s : State) (m : CompatMode) {d : DrawColumnSource}
    (hd : d = s.cfg.drawColumnSource ∨ x ≠ 0xF) :
    ∃ t, execDraw x y n s = .next t ∧ execDraw x y n (s.withModes m d) = .next (t.withModes m d) :=
  ⟨_, rfl, congrArg Host.Outcome.next <| drawRows_withModes x (s.columnOf x) (s.rowOf y) m d n.toNat 0
    (s.writeV regVF 0x00) fun _ ht => rowStart_withModes m ((drawnFrom_writeVF s 0x00).trans ht) hd⟩

theorem execReturn_withModes (s : State) (m : CompatMode) (d : DrawColumnSource) :
    ∃ t, execReturn s = .next t ∧ execReturn (s.withModes m d) = .next (t.withModes m d) := by
  have hst : (s.withModes m d).stack = s.stack := rfl
  rw [execReturn, execReturn, hst]
  cases s.stack with
  | nil => exact ⟨_, rfl, rfl⟩
  | cons top rest => exact ⟨_, rfl, rfl⟩

theorem execCall_withModes (nnn : Addr) (s : State) (m : CompatMode) (d : DrawColumnSource) :
    ∃ t, execCall nnn s = .next t ∧ execCall nnn (s.withModes m d) = .next (t.withModes m d) := by
  have hf : (s.withModes m d).stackFull = s.stackFull := rfl
  rw [execCall, execCall, hf]
  split
  · exact ⟨_, rfl, rfl⟩
  · exact ⟨_, rfl, rfl⟩

/-! ### exec -/

/-- Execute leaves the parameters alone, whether or not it raises a fatal condition (R40). -/
theorem exec_cfg {i : Instr} {s t : State} (h : exec i s = .next t) : t.cfg = s.cfg := by
  obtain ⟨u, hu, hcase⟩ := exec_cases i s
  cases hu.symm.trans h
  rcases hcase with ⟨hx, -, -⟩ | ⟨-, -, rfl⟩ | ⟨_, -, -, rfl⟩
  · exact hx.cfg
  · rfl
  · rfl

/-- Executing commutes with setting the modes: only a shift reads COMPAT_MODE, and only a Draw with x = 0xF can tell one
DRAW_COLUMN_SOURCE from the other (R11, R12). -/
theorem exec_withModes (i : Instr) (s : State) (m : CompatMode) (d : DrawColumnSource)
    (hm : m = s.cfg.compatMode ∨ (∀ x y, i ≠ .shiftRight x y) ∧ ∀ x y, i ≠ .shiftLeft x y)
    (hd : d = s.cfg.drawColumnSource ∨ ∀ y n, i ≠ .draw 0xF y n) :
    ∃ t, exec i s = .next t ∧ exec i (s.withModes m d) = .next (t.withModes m d) := by
  have skip (c : Bool) (h : exec i s = .next (s.skipIf c))
      (h' : exec i (s.withModes m d) = .next ((s.withModes m d).skipIf c)) :
      ∃ t, exec i s = .next t ∧ exec i (s.withModes m d) = .next (t.withModes m d) :=
    ⟨_, h, h'.trans (congrArg _ (s.skipIf_withModes m d c))⟩
  cases i with
  | ret => exact execReturn_withModes s m d
  | call nnn => exact execCall_withModes nnn s m d
  | skipIfEqual x nn => exact skip _ rfl rfl
  | skipIfNotEqual x nn => exact skip _ rfl rfl
  | skipIfEqualXY x y => exact skip _ rfl rfl
  | skipIfNotEqualXY x y => exact skip _ rfl rfl
  | shiftRight x y =>
    obtain rfl := hm.resolve_right fun h => h.1 x y rfl
    exact ⟨_, rfl, rfl⟩
  | shiftLeft x y =>
    obtain rfl := hm.resolve_right fun h => h.2 x y rfl
    exact ⟨_, rfl, rfl⟩
  | draw x y n => exact execDraw_withModes n s m (hd.imp_right fun h hx => h y n (hx ▸ rfl))
  | _ => exact ⟨_, rfl, rfl⟩ -- these arms read neither mode

end Sys2Proof.Machine

open Sys2Proof Sys2Proof.Machine

/-- Settles O56: `exec_withModes` with the column source left as it is. -/
theorem compatModeAffectsOnlyTheShifts : Obligations.CompatModeAffectsOnlyTheShifts := by
  intro i s m hr hl
  obtain ⟨t, ht, ht'⟩ := exec_withModes i s m s.cfg.drawColumnSource (.inr ⟨hr, hl⟩) (.inl rfl)
  exact ⟨t, ht, by simpa only [State.withModes, exec_cfg ht] using ht'⟩

/-- Settles O57: `exec_withModes` with COMPAT_MODE left as it is. -/
theorem drawColumnSourceAffectsOnlyDrawFromVF : Obligations.DrawColumnSourceAffectsOnlyDrawFromVF := by
  intro i s d hx
  obtain ⟨t, ht, ht'⟩ := exec_withModes i s s.cfg.compatMode d (.inl rfl) (.inr hx)
  exact ⟨t, ht, by simpa only [State.withModes, exec_cfg ht] using ht'⟩
end

section
/-! PROOFS. The decoder against the opcode table (spec/30_encoding.md R70 to R77): a word that decodes is the word of its
instruction, and a word the decoder refuses matches no row. -/

namespace Sys2Proof

/-- The rows of the opcode table: two fix the whole word, eight the family, eleven the family and the last nibble (R76). -/
theorem opcodeTable_rows : ∀ r ∈ opcodeTable,
    r.mask = 0xFFFF ∧ (r.pattern = 0x00E0 ∨ r.pattern = 0x00EE) ∨
    family r.mask = 0xF ∧ family r.pattern ∈ [0x1#4, 0x2, 0x3, 0x4, 0x6, 0x7, 0xA, 0xD] ∨
    family r.mask = 0xF ∧ fieldN r.mask = 0xF ∧
      ((family r.pattern = 0x5 ∨ family r.pattern = 0x9) ∧ fieldN r.pattern = 0x0 ∨
        family r.pattern = 0x8 ∧ fieldN r.pattern ∈ [0x0#4, 0x1, 0x2, 0x3, 0x4, 0x5, 0x6, 0x7, 0xE]) := by decide

/-- A row that compares the first nibble fixes it. -/
theorem family_of_matchesWord {r : OpcodeRow} {w : Word} (hmask : family r.mask = 0xF) (h : r.matchesWord w = true) :
    family w = family r.pattern := by
  rw [← xyn_of_fields w, matchesWord_nibbles, hmask] at h
  simp only [Bool.and_eq_true, decide_eq_true_eq] at h
  rw [← h.1.1.1]
  exact BitVec.and_allOnes.symm

/-- A row that compares the last nibble fixes it. -/
theorem fieldN_of_matchesWord {r : OpcodeRow} {w : Word} (hmask : fieldN r.mask = 0xF) (h : r.matchesWord w = true) :
    fieldN w = fieldN r.pattern := by
  rw [← xyn_of_fields w, matchesWord_nibbles, hmask] at h
  simp only [Bool.and_eq_true, decide_eq_true_eq] at h
  rw [← h.2]
  exact BitVec.and_allOnes.symm

/-- A word of a family without illegal words decodes (R70, R74). -/
theorem decodeWord_ok_of_family {w : Word} (h : family w ∈ [0x1#4, 0x2, 0x3, 0x4, 0x6, 0x7, 0xA, 0xD]) :
    ∃ i, decodeWord w = .ok i := by
  simp only [List.mem_cons, List.not_mem_nil, or_false] at h
  rcases h with h | h | h | h | h | h | h | h <;> exact ⟨_, by rw [decodeWord, h]; rfl⟩

/-- A word of family 0x8 whose last nibble names a function decodes (R73). -/
theorem decodeFamily8_ok {w : Word} (h : fieldN w ∈ [0x0#4, 0x1, 0x2, 0x3, 0x4, 0x5, 0x6, 0x7, 0xE]) :
    ∃ i, decodeFamily8 w = .ok i := by
  simp only [List.mem_cons, List.not_mem_nil, or_false] at h
  rcases h with h | h | h | h | h | h | h | h | h <;> exact ⟨_, by rw [decodeFamily8, h]; rfl⟩

/-- A word in R76's set decodes. -/
theorem decodeWord_ok_of_legalWord {w : Word} (h : legalWord w = true) : ∃ i, decodeWord w = .ok i := by
  obtain ⟨r, hr, hm⟩ := List.any_eq_true.mp h
  rcases opcodeTable_rows r hr with ⟨hmask, hp⟩ | ⟨hmask, hf⟩ | ⟨hmask, hmaskN, h59 | h8⟩
  · have hw : w = r.pattern := by
      rw [OpcodeRow.matchesWord, hmask, beq_iff_eq] at hm
      exact BitVec.and_allOnes.symm.trans hm
    rcases hp with hp | hp <;> exact ⟨_, by rw [hw, hp]; rfl⟩
  · exact decodeWord_ok_of_family (family_of_matchesWord hmask hm ▸ hf)
  · rw [← family_of_matchesWord hmask hm, ← fieldN_of_matchesWord hmaskN hm] at h59
    obtain ⟨hf | hf, hn⟩ := h59 <;> exact ⟨_, by rw [decodeWord, hf]; exact if_pos hn⟩
  · rw [← family_of_matchesWord hmask hm, ← fieldN_of_matchesWord hmaskN hm] at h8
    obtain ⟨i, hi⟩ := decodeFamily8_ok h8.2
    exact ⟨i, by rw [decodeWord, h8.1]; exact hi⟩

/-- A word the decoder refuses is illegal (R77). -/
theorem legalWord_of_error {w : Word} {e : DecodeReject} (h : decodeWord w = .error e) : legalWord w = false := by
  rw [← Bool.not_eq_true]
  intro hl
  obtain ⟨i, hi⟩ := decodeWord_ok_of_legalWord hl
  cases h.symm.trans hi

/-! ### A word that decodes is the word of its instruction (R76) -/

theorem encode_of_decodeFamily0 {w : Word} {i : Instr} (h : decodeFamily0 w = .ok i) : encode i = w := by
  rw [decodeFamily0] at h
  split at h
  · rename_i hw; cases h; exact hw.symm
  · split at h
    · rename_i hw; cases h; exact hw.symm
    · cases h

theorem fieldN_of_decodeLowNibbleZero {w : Word} {i j : Instr} (h : decodeLowNibbleZero w i = .ok j) :
    fieldN w = 0 ∧ i = j := by
  rw [decodeLowNibbleZero] at h
  split at h
  · rename_i hn; cases h; exact ⟨hn, rfl⟩
  · cases h

theorem encode_of_decodeFamily8 {w : Word} {i : Instr} (hf : family w = 0x8) (h : decodeFamily8 w = .ok i) :
    encode i = w := by
  have hw := xyn_of_fields w
  rw [hf] at hw
  unfold decodeFamily8 at h
  split at h
  case h_10 => cases h
  all_goals
    rename_i hn
    cases h
    rw [hn] at hw
    exact hw

theorem encode_of_decodeWord {w : Word} {i : Instr} (h : decodeWord w = .ok i) : encode i = w := by
  have hnnn := nnn_of_fields w
  have hxnn := xnn_of_fields w
  have hxyn := xyn_of_fields w
  unfold decodeWord at h
  split at h
  case h_13 => cases h
  all_goals
    rename_i hf
    rw [hf] at hnnn hxnn hxyn
  case h_1 => exact encode_of_decodeFamily0 h
  case h_2 | h_3 | h_11 => cases h; exact hnnn
  case h_4 | h_5 | h_7 | h_8 => cases h; exact hxnn
  case h_6 | h_10 =>
    obtain ⟨hn, rfl⟩ := fieldN_of_decodeLowNibbleZero h
    rw [hn] at hxyn
    exact hxyn
  case h_9 => exact encode_of_decodeFamily8 hf h
  case h_12 => cases h; exact hxyn

end Sys2Proof
end

section
/-! PROOFS. What one step can do, said once, and what the state keeps over it: the invariant, the status record, RUN_STATE and
the parameters (spec/10_state.md R37 to R44). -/

namespace Sys2Proof.Machine

/-! ## What one step can do -/

/-- The next states one step can answer from `s`, by what the step does. A cycle that raises has the cause of its kind. -/
inductive StepCase (s : State) : State → Prop
  /-- `rst` (R185). -/
  | reset {rest : List PortEvent} (h : s.pending = .rst :: rest) : StepCase s { s with pending := rest }.rst
  /-- The loader port writes a byte (R101). -/
  | load {a : Addr} {b : Byte} {rest : List PortEvent} (h : s.pending = .load a b :: rest) (hr : s.runState = .idle) :
      StepCase s ({ s with pending := rest }.writeByte a b)
  /-- `start` in IDLE (R89). -/
  | start {rest : List PortEvent} (h : s.pending = .start :: rest) (hr : s.runState = .idle) :
      StepCase s { s with pending := rest, runState := .running }
  /-- A new level of `sink_open` (R86). -/
  | sink {b : Bool} {rest : List PortEvent} (h : s.pending = .sink b :: rest) :
      StepCase s { s with pending := rest, sinkOpen := b }
  /-- An event without effect: an idle interval, or one that the run state ignores (R89, R98, R101). -/
  | ignored (h : ∀ rest, s.pending ≠ .rst :: rest) : StepCase s { s with pending := s.pending.tail }
  /-- A granted cycle with the sink closed (R97). -/
  | closed {rest : List PortEvent} (h : s.grantsCycle rest) (hr : s.runState = .running) (ho : s.sinkOpen = false) :
      StepCase s { s with pending := rest, runState := .stopped }
  /-- A cycle that raises nothing (R95). -/
  | ran {rest : List PortEvent} {u : State} (h : s.takesCycle rest) (hu : ExecutedFrom (s.atExecute rest) u) :
      StepCase s u.present
  /-- A cycle that raises a fatal condition (R167). -/
  | raised {rest : List PortEvent} {e : ErrKind} (h : s.takesCycle rest) (he : s.hasCause e) :
      StepCase s ((s.atExecute rest).raise e s.pc s.wordAtPC)

/-- The port events left when a cycle is granted (R86). -/
theorem State.grantsCycle.pending_tail {s : State} {rest : List PortEvent} (h : s.grantsCycle rest) :
    s.pending.tail = rest := by
  rcases h with ⟨h, rfl⟩ | h <;> rw [h] <;> rfl

/-- A granted cycle is no `rst`. -/
theorem State.grantsCycle.no_rst {s : State} {rest : List PortEvent} (h : s.grantsCycle rest) (l : List PortEvent) :
    s.pending ≠ .rst :: l := by
  rcases h with ⟨h, -⟩ | h <;> simp [h]

/-- A cycle that runs raises nothing, or has the cause of what it raises (R165, R168). -/
theorem stepCase_of_takesCycle {s t : State} {rest : List PortEvent} (h : s.takesCycle rest) (ht : step s = .next t) :
    StepCase s t := by
  rcases takesCycle_cases h ht with ⟨u, hu, rfl⟩ | ⟨⟨e, hdec⟩, rfl⟩ | ⟨hdec, hst, rfl⟩ | ⟨nnn, hdec, hf, rfl⟩
  · exact .ran h hu
  · exact .raised (e := .decodeError) h (legalWord_of_error hdec)
  · have hw : s.wordAtPC = 0x00EE := (encode_of_decodeWord hdec).symm
    rw [← hw]
    exact .raised (e := .stackUnderflow) h ⟨hw, hst⟩
  · have hw : s.wordAtPC = 0x2#4 ++ nnn := (encode_of_decodeWord hdec).symm
    rw [← hw]
    exact .raised (e := .stackOverflow) h ⟨(congrArg family hw).trans (family_nnn _ _), (State.stackFull_iff s).1 hf⟩

theorem stepCase_of_grantsCycle {s t : State} {rest : List PortEvent} (h : s.grantsCycle rest) (ht : step s = .next t) :
    StepCase s t := by
  by_cases hr : s.runState = .running
  · cases ho : s.sinkOpen with
    | true => exact stepCase_of_takesCycle ⟨h, hr, ho⟩ ht
    | false =>
      rw [step_of_grantsCycle h, cycle_closed (u := { s with pending := rest }) hr ho] at ht
      cases ht
      exact .closed h hr ho
  · rw [step_of_grantsCycle h, cycle_not_running (u := { s with pending := rest }) hr] at ht
    cases ht
    rw [← h.pending_tail]
    exact .ignored h.no_rst

/-- Everything one step can do. -/
theorem stepCase_of_step {s t : State} (ht : step s = .next t) : StepCase s t := by
  rcases grantsCycle_or_event s with ⟨rest, h⟩ | ⟨e, rest, he, h⟩
  · exact stepCase_of_grantsCycle h ht
  · have ignored (hne : e ≠ .rst) : StepCase s { s with pending := rest } := by
      rw [show rest = s.pending.tail by rw [h]; rfl]
      exact .ignored fun l hl => hne (List.cons.inj (h.symm.trans hl)).1
    rw [step_of_event h] at ht
    cases e with
    | rst => cases ht; exact .reset h
    | load a b =>
      cases ht
      rw [loadPort]
      split
      · rename_i hr; exact .load h hr
      · exact ignored (by simp)
    | start =>
      cases ht
      rw [startPort]
      split
      · rename_i hr; exact .start h hr
      · exact ignored (by simp)
    | cycleReq => exact absurd rfl he
    | sink b => cases ht; exact .sink h
    | idle => cases ht; exact ignored (by simp)

/-! ## The invariant -/

theorem State.inv_resetWith (c : Config) : (State.resetWith c).Inv where
  memCanonical := State.wf_resetWith c
  indexInRange := Nat.zero_lt_succ _
  fbShape := List.length_replicate
  frameShape := nofun
  frameCounted := ⟨fun _ => rfl, fun _ => rfl⟩
  stackBounded := fun depth _ => Nat.zero_le depth
  faultedIff := ⟨nofun, fun h => absurd rfl h⟩
  noErrorNoRecord := fun _ => ⟨rfl, rfl⟩
  noAddressRangeError := nofun
  decodeErrorWord := nofun
  underflowWord := nofun
  overflowWord := nofun
  idleIsReset := fun _ => ⟨State.readV_resetWith c, rfl, rfl, rfl, rfl⟩

/-- `rst` leaves only the record of presented frames to the invariant of the state before it. -/
theorem State.Inv.rst {s : State} (h : s.Inv) : s.rst.Inv :=
  { State.inv_resetWith s.cfg with frameShape := h.frameShape, frameCounted := h.frameCounted }

theorem State.Inv.writeByte {s : State} (h : s.Inv) (a : Addr) (b : Byte) : (s.writeByte a b).Inv :=
  { h with memCanonical := State.wf_writeByte h.memCanonical a b }

/-- The ports that the environment drives are no part of the invariant. -/
theorem State.Inv.withPorts {s : State} (h : s.Inv) (rest : List PortEvent) (b : Bool) :
    { s with pending := rest, sinkOpen := b }.Inv := { h with }

/-- In any run state but FAULTED there is no recorded fatal condition (R39). -/
theorem State.Inv.errKind_none {s : State} (h : s.Inv) (hr : s.runState ≠ .faulted) : s.errKind = .none :=
  not_not.1 fun hn => hr (h.faultedIff.2 hn)

/-- Without a fatal condition the run may become RUNNING or STOPPED. -/
theorem State.Inv.withRunState {s : State} (h : s.Inv) (hs : s.runState ≠ .faulted) {r : RunState}
    (hf : r ≠ .faulted) (hi : r ≠ .idle) : { s with runState := r }.Inv :=
  { h with
    faultedIff := ⟨fun e => absurd e hf, fun e => absurd (h.errKind_none hs) e⟩
    idleIsReset := fun e => absurd e hi }

/-- Executing within bounds keeps the invariant, outside IDLE. -/
theorem State.Inv.executed {s t : State} (h : s.Inv) (hr : s.runState = .running) (ht : ExecutedFrom s t) : t.Inv := by
  obtain ⟨heq, hfb, hi, hst⟩ := ht
  rw [heq]
  exact { h with
    indexInRange := hi h.indexInRange
    fbShape := hfb h.fbShape
    stackBounded := hst h.stackBounded
    idleIsReset := fun e => nomatch hr.symm.trans e }

theorem State.Inv.present {s : State} (h : s.Inv) : s.present.Inv :=
  { h with
    frameShape := by rintro _ ⟨⟩; exact h.fbShape
    frameCounted := ⟨nofun, nofun⟩ }

/-- PC and the port events move before execute; outside IDLE the invariant does not speak of them. -/
theorem State.Inv.atExecute {s : State} (h : s.Inv) (hr : s.runState = .running) (rest : List PortEvent) :
    (s.atExecute rest).Inv :=
  { h with idleIsReset := fun e => nomatch hr.symm.trans e }

/-- No cycle has the cause of NONE or of AddressRangeError (R166). -/
theorem State.hasCause.kind {s : State} {e : ErrKind} (h : s.hasCause e) : e ≠ .none ∧ e ≠ .addressRangeError := by
  cases e with
  | none | addressRangeError => exact h.elim
  | decodeError | stackUnderflow | stackOverflow => exact ⟨nofun, nofun⟩

/-- A fatal condition recorded with its cause and its word keeps the invariant (R165, R168). -/
theorem State.Inv.raise {s : State} {e : ErrKind} (h : s.Inv) (he : s.hasCause e) (rest : List PortEvent) :
    ((s.atExecute rest).raise e s.pc s.wordAtPC).Inv :=
  { h with
    faultedIff := ⟨fun _ => he.kind.1, fun _ => rfl⟩
    noErrorNoRecord := fun hn => absurd hn he.kind.1
    noAddressRangeError := he.kind.2
    decodeErrorWord := by rintro rfl; exact he
    underflowWord := by rintro rfl; exact he.1
    overflowWord := by
      rintro rfl
      obtain ⟨hw, depth, hd, -⟩ := he
      exact ⟨hw, fun hu => nomatch (congrArg StackDepth.limit hu).symm.trans hd⟩
    idleIsReset := nofun }

/-- Every step keeps the invariant. -/
theorem State.Inv.step {s t : State} (h : s.Inv) (ht : step s = .next t) : t.Inv := by
  cases stepCase_of_step ht with
  | @reset rest _ => exact (h.withPorts rest s.sinkOpen).rst
  | @load a b rest _ _ => exact (h.withPorts rest s.sinkOpen).writeByte a b
  | @start rest _ hr =>
    exact (h.withPorts rest s.sinkOpen).withRunState (by rw [hr]; simp) (by simp) (by simp)
  | @sink b rest _ => exact h.withPorts rest b
  | ignored _ => exact h.withPorts s.pending.tail s.sinkOpen
  | @closed rest _ hr _ =>
    exact (h.withPorts rest s.sinkOpen).withRunState (by rw [hr]; simp) (by simp) (by simp)
  | @ran rest u hc hu => exact ((h.atExecute hc.2.1 rest).executed hc.2.1 hu).present
  | @raised rest e _ he => exact h.raise he rest

/-! ## Steps in STOPPED and FAULTED -/

/-- Once the run is over, no event but `rst` changes more than the sink level (R89, R101, R184). -/
theorem step_of_ended {s : State} (hi : s.runState ≠ .idle) (hr : s.runState ≠ .running)
    (hrst : ∀ rest, s.pending ≠ .rst :: rest) :
    ∃ b, step s = .next { s with pending := s.pending.drop 1, sinkOpen := b } := by
  rcases grantsCycle_or_event s with ⟨rest, h⟩ | ⟨e, rest, he, h⟩
  · refine ⟨s.sinkOpen, ?_⟩
    rw [step_of_grantsCycle h, cycle_not_running (u := { s with pending := rest }) hr, List.drop_one, h.pending_tail]
  · rw [step_of_event h, h]
    cases e with
    | rst => exact absurd h (hrst rest)
    | load a b => exact ⟨s.sinkOpen, congrArg _ (if_neg hi)⟩
    | start => exact ⟨s.sinkOpen, congrArg _ (if_neg hi)⟩
    | cycleReq => exact absurd rfl he
    | sink b => exact ⟨b, rfl⟩
    | idle => exact ⟨s.sinkOpen, rfl⟩

/-- The same over any number of steps before a `rst`. -/
theorem run_of_ended (k : Nat) {s : State} (hi : s.runState ≠ .idle) (hr : s.runState ≠ .running)
    (hrst : .rst ∉ s.pending.take k) :
    ∃ b, Host.Core.run Sys2Proof.core k s = .next { s with pending := s.pending.drop k, sinkOpen := b } := by
  induction k generalizing s with
  | zero => exact ⟨s.sinkOpen, rfl⟩
  | succ k ih =>
    obtain ⟨b, hb⟩ := step_of_ended hi hr fun rest h => hrst (by simp [h])
    have hlater : .rst ∉ (s.pending.drop 1).take k := fun h =>
      hrst (List.mem_of_mem_drop (i := 1) (by rwa [List.drop_take]))
    obtain ⟨c, hc⟩ := ih (s := { s with pending := s.pending.drop 1, sinkOpen := b }) hi hr hlater
    refine ⟨c, (run_succ (M := Sys2Proof.core) hb).trans (hc.trans ?_)⟩
    rw [List.drop_drop, Nat.add_comm]

end Sys2Proof.Machine

open Sys2Proof Sys2Proof.Machine

/-- Settles O11: `State.Inv.step`, by what the step does. -/
theorem everyStepKeepsTheInvariant : Obligations.EveryStepKeepsTheInvariant := fun _ _ => State.Inv.step

/-- Settles O59: STOPPED is one of the two run states that `run_of_ended` is about. -/
theorem stoppedKeepsAllStateUntilReset : Obligations.StoppedKeepsAllStateUntilReset := by
  intro k s hs hrst
  obtain ⟨b, hb⟩ := run_of_ended k (by simp [hs]) (by simp [hs]) hrst
  exact ⟨_, hb, rfl⟩

/-- Settles O17: only the cases `raised` and `reset` of a step write the record. -/
theorem statusRecordIsWrittenByTheFaultingCycleOnly : Obligations.StatusRecordIsWrittenByTheFaultingCycleOnly := by
  intro s t hrst ht
  have kept {u : State} (hr : u.runState = .faulted → s.runState = .faulted)
      (hrec : u.errKind = s.errKind ∧ u.errAddr = s.errAddr ∧ u.errOpcode = s.errOpcode) :
      (s.runState ≠ .faulted → u.runState = .faulted →
        s.hasCause u.errKind ∧ u.errAddr = s.pc ∧ u.errOpcode = s.readByte s.pc ++ s.readByte (s.pc + 1)) ∧
      (s.runState = .faulted ∨ u.runState ≠ .faulted →
        u.errKind = s.errKind ∧ u.errAddr = s.errAddr ∧ u.errOpcode = s.errOpcode) :=
    ⟨fun hs hu => absurd (hr hu) hs, fun _ => hrec⟩
  cases stepCase_of_step ht with
  | reset h => exact absurd h (hrst _)
  | load _ _ => exact kept id ⟨rfl, rfl, rfl⟩
  | start _ _ => exact kept nofun ⟨rfl, rfl, rfl⟩
  | sink _ => exact kept id ⟨rfl, rfl, rfl⟩
  | ignored _ => exact kept id ⟨rfl, rfl, rfl⟩
  | closed _ _ _ => exact kept nofun ⟨rfl, rfl, rfl⟩
  | ran _ hu => exact kept hu.runState.symm.trans ⟨hu.errKind, hu.errAddr, hu.errOpcode⟩
  | raised h he =>
    refine ⟨fun _ _ => ⟨he, rfl, rfl⟩, ?_⟩
    rintro (hs | hn)
    · exact nomatch h.2.1.symm.trans hs
    · exact absurd rfl hn

/-- Settles O27: each case of a step moves RUN_STATE along one edge of R38, or not at all. -/
theorem runStateTransitions : Obligations.RunStateTransitions := by
  intro s t ht
  refine ⟨fun ⟨rest, h⟩ => ?_, fun hrst => ?_⟩
  · rw [step_of_event h] at ht
    cases ht
    rfl
  · have stays (e : t.runState = s.runState) :
        (s.runState = .idle → t.runState = .idle ∨ t.runState = .running ∧ ∃ rest, s.pending = .start :: rest) ∧
        (s.runState = .running → t.runState = .running ∨
          t.runState = .stopped ∧ s.sinkOpen = false ∨ t.runState = .faulted ∧ s.sinkOpen = true) ∧
        (s.runState = .stopped → t.runState = .stopped) ∧ (s.runState = .faulted → t.runState = .faulted) :=
      ⟨fun h => .inl (e.trans h), fun h => .inl (e.trans h), e.trans, e.trans⟩
    cases stepCase_of_step ht with
    | reset h => exact absurd h (hrst _)
    | load _ _ => exact stays rfl
    | @start rest h hr => simp [hr, h]
    | sink _ => exact stays rfl
    | ignored _ => exact stays rfl
    | closed _ hr ho => simp [hr, ho]
    | ran _ hu => exact stays hu.runState
    | raised h _ => simp [h.2.1, h.2.2]

/-- Settles O8: the `rst` event as `State.rst` leaves the parameters and the ports. -/
theorem resetEventKeepsParametersAndPorts : Obligations.ResetEventKeepsParametersAndPorts := fun _ _ h =>
  ⟨_, step_of_event h, rfl, rfl, rfl, rfl, rfl⟩

/-- Settles O9: the reset values, read through the accessors. -/
theorem startStateHoldsTheResetValues : Obligations.StartStateHoldsTheResetValues :=
  ⟨rfl, fun c => ⟨State.readV_resetWith c, rfl, rfl, State.readByte_resetWith c, rfl, List.length_replicate,
    State.pixel_resetWith c, rfl, rfl, rfl, rfl⟩⟩

/-- Settles O10: `State.inv_resetWith`, the recommended parameters among all others. -/
theorem resetMeetsTheInvariant : Obligations.ResetMeetsTheInvariant :=
  ⟨State.inv_resetWith Config.recommended, State.inv_resetWith⟩

/-- Settles O32: the codes as the ports show them. -/
theorem statusRecordCodes : Obligations.StatusRecordCodes := ⟨rfl, rfl, rfl, rfl, rfl, rfl, rfl, rfl, rfl⟩

/-- Settles O55: no case of a step writes the parameters. -/
theorem parametersAreConstant : Obligations.ParametersAreConstant := by
  intro s t ht
  cases stepCase_of_step ht with
  | ran _ hu => exact hu.cfg
  | _ => rfl
end

section
/-! PROOFS. What each instruction may change (R22 to R35, R165), where it leaves PC (R27), and what it learns of the framebuffer
(R35). -/

namespace Sys2Proof.Machine.State

/-! ## What each operation changes -/

theorem changesOnly_refl (s : State) (w : Writes) : s.changesOnly w s := by simp [changesOnly]

theorem changesOnly.trans {s t u : State} {w : Writes} (h : s.changesOnly w t) (h' : t.changesOnly w u) :
    s.changesOnly w u := by
  obtain ⟨hv, hpc, hi, hst, hfb, hrec, hmem, hcfg, hsink, hpend, hupd, hlast⟩ := h
  obtain ⟨hv', hpc', hi', hst', hfb', hrec', hmem', hcfg', hsink', hpend', hupd', hlast'⟩ := h'
  refine ⟨fun r hr => (hv' r hr).trans (hv r hr), fun e => (hpc' e).trans (hpc e), fun e => (hi' e).trans (hi e),
    fun e => (hst' e).trans (hst e), fun e => (hfb' e).trans (hfb e), fun e => ?_, fun a => (hmem' a).trans (hmem a),
    hcfg'.trans hcfg, hsink'.trans hsink, hpend'.trans hpend, hupd'.trans hupd, hlast'.trans hlast⟩
  obtain ⟨h1, h2, h3, h4⟩ := hrec e
  obtain ⟨h1', h2', h3', h4'⟩ := hrec' e
  exact ⟨h1'.trans h1, h2'.trans h2, h3'.trans h3, h4'.trans h4⟩

section
variable (s : State) {w : Writes}

theorem changesOnly_writeV {x : Reg} (b : Byte) (h : x ∈ w.regs) : s.changesOnly w (s.writeV x b) := by
  have hne : ∀ r, r ∉ w.regs → r ≠ x := fun r hr e => hr (e ▸ h)
  simp +contextual [changesOnly, hne]

theorem changesOnly_writeWithFlag {x : Reg} (b : Byte) (f : Bool) (h : x ∈ w.regs) (hf : 0xF ∈ w.regs) :
    s.changesOnly w (s.writeWithFlag x b f) :=
  (s.changesOnly_writeV b h).trans (changesOnly_writeV _ _ hf)

theorem changesOnly_writePC (a : Addr) (h : w.pc = true) : s.changesOnly w (s.writePC a) := by simp [changesOnly, h]

theorem changesOnly_skipIf (c : Bool) (h : w.pc = true) : s.changesOnly w (s.skipIf c) := by
  rw [skipIf_eq]
  exact s.changesOnly_writePC _ h

theorem changesOnly_writeI (v : Word) (h : w.index = true) : s.changesOnly w (s.writeI v) := by simp [changesOnly, h]

theorem changesOnly_push (a : Addr) (h : w.stack = true) : s.changesOnly w (s.push a) := by simp [changesOnly, h]

theorem changesOnly_withStack (l : List Addr) (h : w.stack = true) : s.changesOnly w (s.withStack l) := by
  simp [changesOnly, h]

theorem changesOnly_clearFB (h : w.fb = true) : s.changesOnly w s.clearFB := by simp [changesOnly, h]

theorem changesOnly_raise (e : ErrKind) (a : Addr) (v : Word) (h : w.status = true) : s.changesOnly w (s.raise e a v) := by
  simp [changesOnly, h]

end

/-- A Draw changes FB and VF alone (R153). -/
theorem changesOnly_of_drawnFrom {s t : State} {w : Writes} (h : DrawnFrom s t) (hv : 0xF ∈ w.regs) (hfb : w.fb = true) :
    s.changesOnly w t := by
  obtain ⟨heq, -, hreg⟩ := h
  refine ⟨fun r hr => hreg r fun e => hr (e ▸ hv), ?_⟩
  rw [heq]
  simp [hfb, readByte]

end Sys2Proof.Machine.State

namespace Sys2Proof.Machine

/-! ## What each instruction changes -/

theorem execReturn_changesOnly (s : State) : ∃ t, execReturn s = .next t ∧ s.changesOnly (writesOf .ret) t := by
  rw [execReturn]
  cases s.stack with
  | nil => exact ⟨_, rfl, s.changesOnly_raise _ _ _ rfl⟩
  | cons top rest => exact ⟨_, rfl, (s.changesOnly_withStack rest rfl).trans (State.changesOnly_writePC _ top rfl)⟩

theorem execCall_changesOnly (nnn : Addr) (s : State) :
    ∃ t, execCall nnn s = .next t ∧ s.changesOnly (writesOf (.call nnn)) t := by
  rw [execCall]
  split
  · exact ⟨_, rfl, s.changesOnly_raise _ _ _ rfl⟩
  · exact ⟨_, rfl, (s.changesOnly_push s.pc rfl).trans (State.changesOnly_writePC _ nnn rfl)⟩

/-- What a Draw leaves is `DrawnFrom` the state before it. -/
theorem execDraw_drawnFrom (x y : Reg) (n : BitVec 4) (s : State) : ∃ t, execDraw x y n s = .next t ∧ DrawnFrom s t :=
  ⟨_, rfl, (drawnFrom_writeVF s 0x00).trans (drawnFrom_drawRows x _ _ n.toNat 0 _)⟩

theorem exec_changesOnly (i : Instr) (s : State) : ∃ t, exec i s = .next t ∧ s.changesOnly (writesOf i) t := by
  have skip (c : Bool) (h : exec i s = .next (s.skipIf c)) (hw : (writesOf i).pc = true) :
      ∃ t, exec i s = .next t ∧ s.changesOnly (writesOf i) t := ⟨_, h, s.changesOnly_skipIf c hw⟩
  have reg {x : Reg} {b : Byte} (h : exec i s = .next (s.writeV x b)) (hw : (writesOf i).regs = [x]) :
      ∃ t, exec i s = .next t ∧ s.changesOnly (writesOf i) t := ⟨_, h, s.changesOnly_writeV b (by simp [hw])⟩
  have flag {x : Reg} {b : Byte} {f : Bool} (h : exec i s = .next (s.writeWithFlag x b f))
      (hw : (writesOf i).regs = [x, 0xF]) : ∃ t, exec i s = .next t ∧ s.changesOnly (writesOf i) t :=
    ⟨_, h, s.changesOnly_writeWithFlag b f (by simp [hw]) (by simp [hw])⟩
  cases i with
  | clearScreen => exact ⟨_, rfl, s.changesOnly_clearFB rfl⟩
  | ret => exact execReturn_changesOnly s
  | jump nnn => exact ⟨_, rfl, s.changesOnly_writePC nnn rfl⟩
  | call nnn => exact execCall_changesOnly nnn s
  | setIRegister nnn => exact ⟨_, rfl, s.changesOnly_writeI _ rfl⟩
  | draw x y n =>
    obtain ⟨t, ht, hd⟩ := execDraw_drawnFrom x y n s
    exact ⟨t, ht, State.changesOnly_of_drawnFrom hd (by simp [writesOf]) rfl⟩
  | skipIfEqual x nn | skipIfNotEqual x nn => exact skip _ rfl rfl
  | skipIfEqualXY x y | skipIfNotEqualXY x y => exact skip _ rfl rfl
  | setVX x nn | addVX x nn => exact reg rfl rfl
  | setVXToVY x y | orVXVY x y | andVXVY x y | xorVXVY x y => exact reg rfl rfl
  | addVYToVX x y | subVYFromVX x y | subVXFromVY x y => exact flag rfl rfl
  | shiftRight x y | shiftLeft x y => exact flag rfl rfl

/-! ## Where PC stands after an instruction -/

theorem pc_skipIf (s : State) (c : Bool) : (s.skipIf c).pc = if c then s.pc + 2 else s.pc := by
  rw [State.skipIf_eq, State.writePC_pc, addr12_toNat_add]
  rfl

/-- PC after `i` runs from `s` without raising, when PC is already past the word (R27). -/
def pcAfter (i : Instr) (s : State) : Addr :=
  match i with
  | .jump nnn => nnn
  | .call nnn => nnn
  | .ret => s.stack.headD 0
  | .skipIfEqual x nn => if s.readV x = nn then s.pc + 2 else s.pc
  | .skipIfNotEqual x nn => if s.readV x ≠ nn then s.pc + 2 else s.pc
  | .skipIfEqualXY x y => if s.readV x = s.readV y then s.pc + 2 else s.pc
  | .skipIfNotEqualXY x y => if s.readV x ≠ s.readV y then s.pc + 2 else s.pc
  | _ => s.pc

theorem exec_pc {i : Instr} {s t : State} (ht : exec i s = .next t) (hr : t.runState ≠ .faulted) : t.pc = pcAfter i s := by
  have fixed (hw : (writesOf i).pc = false) : t.pc = s.pc := by
    obtain ⟨u, hu, -, hpc, -⟩ := exec_changesOnly i s
    cases hu.symm.trans ht
    exact hpc hw
  cases i with
  | jump nnn => cases ht; rfl
  | call nnn =>
    rw [exec, execCall] at ht
    split at ht
    · cases ht; exact absurd rfl hr
    · cases ht; rfl
  | ret =>
    rw [exec, execReturn] at ht
    split at ht
    · cases ht; exact absurd rfl hr
    · rename_i hst; cases ht; rw [pcAfter, hst]; rfl
  | skipIfEqual x nn => cases ht; simp [pc_skipIf, pcAfter]
  | skipIfNotEqual x nn => cases ht; simp [pc_skipIf, pcAfter]
  | skipIfEqualXY x y => cases ht; simp [pc_skipIf, pcAfter]
  | skipIfNotEqualXY x y => cases ht; simp [pc_skipIf, pcAfter]
  | _ => exact fixed rfl

/-- A cycle that decodes `i` ends as execute of `i` does, but for the present step (R94, R95). -/
theorem exec_of_takesCycle {s t : State} {rest : List PortEvent} {i : Instr} (h : s.takesCycle rest)
    (hi : decodeWord s.wordAtPC = .ok i) (ht : step s = .next t) :
    ∃ u, exec i (s.atExecute rest) = .next u ∧ t = presentUnlessFaulted u := by
  obtain ⟨u, hu, -⟩ := exec_cases i (s.atExecute rest)
  rw [step_of_takesCycle h, hi] at ht
  simp only [executeAndPresent, hu, Host.Outcome.next.injEq] at ht
  exact ⟨u, hu, ht.symm⟩

@[simp] theorem presentUnlessFaulted_pc (s : State) : (presentUnlessFaulted s).pc = s.pc := by
  rw [presentUnlessFaulted]; split <;> rfl

@[simp] theorem presentUnlessFaulted_runState (s : State) : (presentUnlessFaulted s).runState = s.runState := by
  rw [presentUnlessFaulted]; split <;> rfl

/-- A fatal condition leaves PC past the word (R168). -/
theorem pc_of_faulted {s t : State} {rest : List PortEvent} (h : s.takesCycle rest) (ht : step s = .next t)
    (hf : t.runState = .faulted) : t.pc = s.pc + 2 := by
  rcases takesCycle_cases h ht with ⟨u, hu, rfl⟩ | ⟨-, rfl⟩ | ⟨-, -, rfl⟩ | ⟨nnn, -, -, rfl⟩
  · exact nomatch (h.2.1.symm.trans (hu.runState.symm.trans hf))
  all_goals rfl

/-! ## What an instruction learns of the framebuffer -/

/-- `s` with the framebuffer `f`. -/
def State.withFB (s : State) (f : List Bool) : State := { s with fb := f }

/-- Every instruction but Draw runs the same over another framebuffer (R35). -/
theorem exec_withFB (i : Instr) (s : State) (f : List Bool) (hd : ∀ x y n, i ≠ .draw x y n) :
    ∃ t g, exec i s = .next t ∧ exec i (s.withFB f) = .next (t.withFB g) := by
  have skip (c : Bool) (h : exec i s = .next (s.skipIf c)) (h' : exec i (s.withFB f) = .next ((s.withFB f).skipIf c)) :
      ∃ t g, exec i s = .next t ∧ exec i (s.withFB f) = .next (t.withFB g) :=
    ⟨_, f, h, h'.trans (by cases c <;> rfl)⟩
  cases i with
  | draw x y n => exact absurd rfl (hd x y n)
  | ret =>
    have hst : (s.withFB f).stack = s.stack := rfl
    rw [exec, exec, execReturn, execReturn, hst]
    cases s.stack with
    | nil => exact ⟨_, f, rfl, rfl⟩
    | cons top rest => exact ⟨_, f, rfl, rfl⟩
  | call nnn =>
    have hf : (s.withFB f).stackFull = s.stackFull := rfl
    rw [exec, exec, execCall, execCall, hf]
    split
    · exact ⟨_, f, rfl, rfl⟩
    · exact ⟨_, f, rfl, rfl⟩
  | skipIfEqual x nn | skipIfNotEqual x nn => exact skip _ rfl rfl
  | skipIfEqualXY x y | skipIfNotEqualXY x y => exact skip _ rfl rfl
  | _ => exact ⟨_, _, rfl, rfl⟩ -- these arms do not read FB

end Sys2Proof.Machine

open Sys2Proof Sys2Proof.Machine

/-- Settles O54: `exec_changesOnly`, by the operations each instruction is made of. -/
theorem everyInstructionWritesOnlyItsStores : Obligations.EveryInstructionWritesOnlyItsStores := exec_changesOnly

/-- Settles O20: `exec_pc` from the state execute starts from, where PC is A + 2. -/
theorem pcAfterEachInstruction : Obligations.PCAfterEachInstruction := by
  refine fun s t rest h ht => ⟨pc_of_faulted h ht, fun i hi hr => ?_⟩
  obtain ⟨u, hu, rfl⟩ := exec_of_takesCycle h hi ht
  rw [presentUnlessFaulted_runState] at hr
  rw [presentUnlessFaulted_pc, exec_pc hu hr]
  cases i <;> rfl

/-- Settles O58: a Draw writes FB and VF alone whatever the framebuffer, every other instruction runs the same. -/
theorem framebufferIsSeenOnlyThroughTheCollisionFlag : Obligations.FramebufferIsSeenOnlyThroughTheCollisionFlag := by
  intro i s f
  by_cases hdraw : ∃ x y n, i = .draw x y n
  · obtain ⟨x, y, n, rfl⟩ := hdraw
    obtain ⟨t, ht, hts, -, htv⟩ := execDraw_drawnFrom x y n s
    obtain ⟨u, hu, hus, -, huv⟩ := execDraw_drawnFrom x y n (s.withFB f)
    refine ⟨t, u, ht, hu, fun r hr => ?_, ?_⟩
    · have hne : r ≠ 0xF := hr.resolve_right fun h => h x y n rfl
      exact (huv r hne).trans (htv r hne).symm
    · rw [hts]
      exact hus
  · obtain ⟨t, g, ht, hu⟩ := exec_withFB i s f fun x y n h => hdraw ⟨x, y, n, h⟩
    exact ⟨t, t.withFB g, ht, hu, fun _ _ => rfl, rfl⟩
end

section
/-! PROOFS. Memory over a step (spec/20_memory.md R47, R50, R57). -/

namespace Sys2Proof.Machine

/-- Outside IDLE only `rst` writes M: the loader port is closed, and execute has no store to memory (R47, R50). -/
theorem mem_step_of_not_idle {s t : State} (hi : s.runState ≠ .idle) (hrst : ∀ rest, s.pending ≠ .rst :: rest)
    (ht : step s = .next t) : t.mem = s.mem := by
  cases stepCase_of_step ht with
  | reset h => exact absurd h (hrst _)
  | load _ hr => exact absurd hr hi
  | ran _ hu => exact hu.mem
  | start _ _ | sink _ | ignored _ | closed _ _ _ | raised _ _ => rfl

end Sys2Proof.Machine

open Sys2Proof Sys2Proof.Machine

/-- Settles O26: RUNNING is one of the run states that `mem_step_of_not_idle` is about. -/
theorem memoryIsConstantWhileRunning : Obligations.MemoryIsConstantWhileRunning := by
  intro s t hr hrst ht a
  have hmem : t.mem = s.mem := mem_step_of_not_idle (by simp [hr]) hrst ht
  simp only [State.readByte, hmem]
end

section
/-! PROOFS. The encoder and the opcode table: decoding undoes encoding, the words that decode are the words of the table, and
what each opcode family decodes to (spec/30_encoding.md R65 to R79). -/

namespace Sys2Proof

/-! ### Decoding undoes encoding (R76, R79) -/

/-- The family nibble selects the arm of the decoder that takes the encoder's operand fields out again. -/
theorem decodeWord_encode (i : Instr) : decodeWord (encode i) = .ok i := by
  cases i with
  | clearScreen | ret => rfl
  | jump nnn | call nnn | setIRegister nnn => simp only [encode, decodeWord, family_nnn, fieldNNN_nnn]
  | skipIfEqual x nn | skipIfNotEqual x nn | setVX x nn | addVX x nn =>
    simp only [encode, decodeWord, family_xnn, fieldX_xnn, fieldNN_xnn]
  | skipIfEqualXY x y | skipIfNotEqualXY x y =>
    simp only [encode, decodeWord, decodeLowNibbleZero, family_xyn, fieldX_xyn, fieldY_xyn, fieldN_xyn]
    exact if_pos rfl
  | draw x y n => simp only [encode, decodeWord, family_xyn, fieldX_xyn, fieldY_xyn, fieldN_xyn]
  | _ => simp only [encode, decodeWord, decodeFamily8, family_xyn, fieldX_xyn, fieldY_xyn, fieldN_xyn] -- family 0x8

/-- Two bytes are taken, and the bytes after them are left (R65, R79). -/
theorem decodeBytes_of_decodeWord {w : Word} {i : Instr} (h : decodeWord w = .ok i) (rest : List Byte) :
    decodeBytes (highByte w :: lowByte w :: rest) = .ok (i, rest) := by
  rw [decodeBytes, wordOfBytes_bytes, h]

/-! ### The words the decoder refuses (R69, R72, R73, R75) -/

theorem decodeWord_family0_error {nnn : Addr} (h0 : nnn ≠ 0x0E0) (hE : nnn ≠ 0x0EE) :
    decodeWord (0x0#4 ++ nnn) = .error .illegalFamily0 := by
  have hne {m : Addr} (h : nnn ≠ m) : (0x0#4 ++ nnn : Word) ≠ 0x0#4 ++ m := fun hw =>
    h (by simpa only [fieldNNN_nnn] using congrArg fieldNNN hw)
  rw [decodeWord, family_nnn]
  exact (if_neg (hne h0)).trans (if_neg (hne hE))

theorem decodeWord_lowNibble_error {f : BitVec 4} (hf : f = 0x5 ∨ f = 0x9) (x y : Reg) {n : BitVec 4} (hn : n ≠ 0) :
    decodeWord (f ++ x ++ y ++ n) = .error .illegalLowNibble := by
  rw [decodeWord, family_xyn]
  rcases hf with rfl | rfl <;> exact if_neg (by rwa [fieldN_xyn])

theorem decodeWord_family8_error (x y : Reg) {n : BitVec 4}
    (hn : n = 0x8 ∨ n = 0x9 ∨ n = 0xA ∨ n = 0xB ∨ n = 0xC ∨ n = 0xD ∨ n = 0xF) :
    decodeWord (0x8#4 ++ x ++ y ++ n) = .error .illegalFunction := by
  simp only [decodeWord, decodeFamily8, family_xyn, fieldN_xyn]
  rcases hn with rfl | rfl | rfl | rfl | rfl | rfl | rfl <;> rfl

theorem decodeWord_illegalFamily (nnn : Addr) {f : BitVec 4} (hf : f = 0xB ∨ f = 0xC ∨ f = 0xE ∨ f = 0xF) :
    decodeWord (f ++ nnn) = .error .illegalFamily := by
  rw [decodeWord, family_nnn]
  rcases hf with rfl | rfl | rfl | rfl <;> rfl

/-! ### The opcode table (R76) -/

open Laws.EncodeLegal in
/-- Every instruction's word is in the table, row by row of `Laws.EncodeLegal`. -/
theorem legalWord_encode : ∀ i : Instr, legalWord (encode i) = true
  | .clearScreen => clearScreen
  | .ret => ret
  | .jump nnn => jump nnn
  | .call nnn => call nnn
  | .skipIfEqual x nn => skipIfEqual x nn
  | .skipIfNotEqual x nn => skipIfNotEqual x nn
  | .skipIfEqualXY x y => skipIfEqualXY x y
  | .setVX x nn => setVX x nn
  | .addVX x nn => addVX x nn
  | .setVXToVY x y => setVXToVY x y
  | .orVXVY x y => orVXVY x y
  | .andVXVY x y => andVXVY x y
  | .xorVXVY x y => xorVXVY x y
  | .addVYToVX x y => addVYToVX x y
  | .subVYFromVX x y => subVYFromVX x y
  | .shiftRight x y => shiftRight x y
  | .subVXFromVY x y => subVXFromVY x y
  | .shiftLeft x y => shiftLeft x y
  | .skipIfNotEqualXY x y => skipIfNotEqualXY x y
  | .setIRegister nnn => setIRegister nnn
  | .draw x y n => draw x y n

/-- Two rows that match one word agree under the bits both compare. -/
theorem not_disjoint_of_matchesWord {r q : OpcodeRow} {w : Word} (hr : r.matchesWord w = true)
    (hq : q.matchesWord w = true) : r.disjoint q = false := by
  rw [OpcodeRow.matchesWord, beq_iff_eq] at hr hq
  rw [OpcodeRow.disjoint, ← hr, ← hq, BitVec.and_assoc, BitVec.and_assoc, BitVec.and_comm r.mask]
  exact bne_self_eq_false _

theorem opcodeTable_pairwise_disjoint : opcodeTable.Pairwise (fun r q => r.disjoint q = true) := by decide

/-- Of two rows that match, the first would not be disjoint from the second. -/
theorem length_le_one_of_matchesWord {w : Word} {rows : List OpcodeRow}
    (hpair : rows.Pairwise (fun r q => r.disjoint q = true)) (hmatch : ∀ r ∈ rows, r.matchesWord w = true) :
    rows.length ≤ 1 := by
  match rows with
  | [] | [_] => simp
  | r :: q :: _ =>
    have hdisjoint : r.disjoint q = true := List.rel_of_pairwise_cons hpair (by simp)
    have hnot : r.disjoint q = false := not_disjoint_of_matchesWord (hmatch r (by simp)) (hmatch q (by simp))
    cases hdisjoint.symm.trans hnot

theorem length_filter_matchesWord_le_one (w : Word) : (opcodeTable.filter (fun r => r.matchesWord w)).length ≤ 1 :=
  length_le_one_of_matchesWord (opcodeTable_pairwise_disjoint.filter _) fun _ hr => (List.mem_filter.mp hr).2

end Sys2Proof

open Sys2Proof

/-- Settles O3: `decodeWord_encode`, on the word and on its two bytes. -/
theorem decodeGivesBackEveryEncodedInstruction : Obligations.DecodeGivesBackEveryEncodedInstruction :=
  ⟨decodeWord_encode, fun i rest => decodeBytes_of_decodeWord (decodeWord_encode i) rest⟩

/-- Settles O1: the words that decode by `decodeWord_encode`, the others by the lemma of their rule. -/
theorem decodeFollowsTheOpcodeMap : Obligations.DecodeFollowsTheOpcodeMap := by
  refine ⟨fun nnn => ⟨?_, ?_, ?_, ?_, ?_, ?_, ?_⟩, fun x nn => ⟨?_, ?_, ?_, ?_⟩, fun x y n => ⟨?_, ?_, ?_, ?_, ?_, ?_⟩,
    fun x y => ⟨?_, ?_, ?_, ?_, ?_, ?_, ?_, ?_, ?_⟩⟩
  -- 0xFNNN
  · rintro rfl; exact decodeWord_encode .clearScreen
  · rintro rfl; exact decodeWord_encode .ret
  · exact fun h0 hE => ⟨_, decodeWord_family0_error h0 hE⟩
  · exact decodeWord_encode (.jump nnn)
  · exact decodeWord_encode (.call nnn)
  · exact decodeWord_encode (.setIRegister nnn)
  · exact fun f hf => ⟨_, decodeWord_illegalFamily nnn hf⟩
  -- 0xFXNN
  · exact decodeWord_encode (.skipIfEqual x nn)
  · exact decodeWord_encode (.skipIfNotEqual x nn)
  · exact decodeWord_encode (.setVX x nn)
  · exact decodeWord_encode (.addVX x nn)
  -- 0xFXYN
  · rintro rfl; exact decodeWord_encode (.skipIfEqualXY x y)
  · exact fun hn => ⟨_, decodeWord_lowNibble_error (.inl rfl) x y hn⟩
  · rintro rfl; exact decodeWord_encode (.skipIfNotEqualXY x y)
  · exact fun hn => ⟨_, decodeWord_lowNibble_error (.inr rfl) x y hn⟩
  · exact decodeWord_encode (.draw x y n)
  · exact fun hn => ⟨_, decodeWord_family8_error x y hn⟩
  -- 0x8XYN
  · exact decodeWord_encode (.setVXToVY x y)
  · exact decodeWord_encode (.orVXVY x y)
  · exact decodeWord_encode (.andVXVY x y)
  · exact decodeWord_encode (.xorVXVY x y)
  · exact decodeWord_encode (.addVYToVX x y)
  · exact decodeWord_encode (.subVYFromVX x y)
  · exact decodeWord_encode (.shiftRight x y)
  · exact decodeWord_encode (.subVXFromVY x y)
  · exact decodeWord_encode (.shiftLeft x y)

/-- Settles O4: the decoder's arms, read backwards. -/
theorem encodeGivesBackEveryDecodedWord : Obligations.EncodeGivesBackEveryDecodedWord :=
  fun _ _ h => encode_of_decodeWord h

/-- Settles O5: a word that decodes is the encoder's, so it is in the table. -/
theorem decodeSucceedsExactlyOnTableWords : Obligations.DecodeSucceedsExactlyOnTableWords :=
  fun _ => ⟨fun ⟨i, hi⟩ => encode_of_decodeWord hi ▸ legalWord_encode i, decodeWord_ok_of_legalWord⟩

/-- Settles O6: the 21 rows are pairwise disjoint. -/
theorem atMostOneTableRowMatchesAWord : Obligations.AtMostOneTableRowMatchesAWord :=
  ⟨rfl, length_filter_matchesWord_le_one⟩
end

section
/-! PROOFS. The cycle and the ports (spec/40_cycle.md R86 to R103): that every step answers a next state, when a frame is
presented, a jump to itself, and what each port event does. -/

namespace Sys2Proof.Machine

/-! ## Every step answers a next state -/

theorem exec_answersNext (i : Instr) (s : State) : ∃ t, exec i s = .next t := by
  obtain ⟨t, ht, -⟩ := exec_cases i s
  exact ⟨t, ht⟩

theorem executeAndPresent_answersNext (i : Instr) (s : State) : ∃ t, executeAndPresent i s = .next t := by
  obtain ⟨t, ht⟩ := exec_answersNext i s
  exact ⟨presentUnlessFaulted t, by rw [executeAndPresent, ht]⟩

/-- A cycle answers a next state in every run state and at either sink level (R89, R97, R167). -/
theorem cycle_answersNext (u : State) : ∃ t, cycle u = .next t := by
  by_cases hr : u.runState = .running
  · cases ho : u.sinkOpen with
    | false => exact ⟨_, cycle_closed hr ho⟩
    | true =>
      rw [cycle_open hr ho]
      cases decodeWord u.wordAtPC with
      | ok i => exact executeAndPresent_answersNext i _
      | error e => exact ⟨_, rfl⟩
  · exact ⟨u, cycle_not_running hr⟩

theorem step_answersNext (s : State) : ∃ t, step s = .next t := by
  rcases grantsCycle_or_event s with ⟨rest, h⟩ | ⟨e, rest, he, h⟩
  · rw [step_of_grantsCycle h]
    exact cycle_answersNext _
  · rw [step_of_event h]
    cases e with
    | cycleReq => exact absurd rfl he
    | rst | load a b | start | sink b | idle => exact ⟨_, rfl⟩

/-! ## A jump to itself -/

/-- The next step, with nothing pending, is a cycle whose word is a jump to its own address. -/
def State.AtSelfJump (s : State) : Prop := s.takesCycle [] ∧ s.pending = [] ∧ s.wordAtPC = 0x1#4 ++ s.pc

/-- The present step moves none of what makes the next cycle a jump to itself. -/
theorem State.AtSelfJump.present {s : State} (h : s.AtSelfJump) : s.present.AtSelfJump := h

/-- A cycle that jumps to itself undoes the fetch's move of PC, so that its present step is all it does (R102, R107). -/
theorem step_of_atSelfJump {s : State} (h : s.AtSelfJump) : step s = .next s.present := by
  obtain ⟨hc, hp, hw⟩ := h
  have hdec : decodeWord s.wordAtPC = .ok (.jump s.pc) := hw ▸ decodeWord_encode (.jump s.pc)
  have hexec : exec (.jump s.pc) (s.atExecute []) = .next s := by rw [State.atExecute, ← hp]; rfl
  have hrun : s.runState ≠ .faulted := by simp [hc.2.1]
  simp only [step_of_takesCycle hc, hdec, executeAndPresent, hexec, presentUnlessFaulted, if_neg hrun]

theorem runsSafely_of_atSelfJump (k : Nat) {s : State} (h : s.AtSelfJump) : s.runsSafely k := by
  have hsafe : s.safe := by simp [State.safe, h.1.2.1]
  induction k generalizing s with
  | zero => exact hsafe
  | succ k ih => exact ⟨hsafe, s.present, step_of_atSelfJump h, ih h.present hsafe⟩

theorem run_of_atSelfJump (k : Nat) {s : State} (h : s.AtSelfJump) :
    Host.Core.run Sys2Proof.core k s = .next (State.present^[k] s) := by
  induction k generalizing s with
  | zero => rfl
  | succ k ih => exact (run_succ (M := Sys2Proof.core) (step_of_atSelfJump h)).trans (ih h.present)

/-- Presenting `k` times counts `k` updates, each of the same framebuffer (R95). -/
theorem present_iterate (k : Nat) (s : State) :
    State.present^[k] s =
      { s with fbUpdates := s.fbUpdates + k, lastFrame := if k = 0 then s.lastFrame else some s.fb } := by
  induction k with
  | zero => rfl
  | succ k ih => rw [Function.iterate_succ_apply', ih]; rfl

/-! ## The ports by run state -/

/-- `start` in IDLE (R89). -/
theorem step_start_idle {s : State} {rest : List PortEvent} (h : s.pending = .start :: rest) (hr : s.runState = .idle) :
    step s = .next { s with runState := .running, pending := rest } :=
  (step_of_event h).trans (congrArg Host.Outcome.next (if_pos hr))

/-- `start` in any other run state (R89). -/
theorem step_start_not_idle {s : State} {rest : List PortEvent} (h : s.pending = .start :: rest) (hr : s.runState ≠ .idle) :
    step s = .next { s with pending := rest } :=
  (step_of_event h).trans (congrArg Host.Outcome.next (if_neg hr))

/-- The loader port in IDLE (R50, R101). -/
theorem step_load_idle {s : State} {a : Addr} {b : Byte} {rest : List PortEvent} (h : s.pending = .load a b :: rest)
    (hr : s.runState = .idle) : step s = .next ({ s with pending := rest }.writeByte a b) :=
  (step_of_event h).trans (congrArg Host.Outcome.next (if_pos hr))

/-- The loader port in any other run state (R101). -/
theorem step_load_not_idle {s : State} {a : Addr} {b : Byte} {rest : List PortEvent} (h : s.pending = .load a b :: rest)
    (hr : s.runState ≠ .idle) : step s = .next { s with pending := rest } :=
  (step_of_event h).trans (congrArg Host.Outcome.next (if_neg hr))

/-- Before any cycle has run PC is PROGRAM_BASE (R29). -/
theorem State.Inv.pc_of_idle {s : State} (h : s.Inv) (hr : s.runState = .idle) : s.pc = 0x200 := by
  obtain ⟨-, -, -, hpc, -⟩ := h.idleIsReset hr
  exact hpc

end Sys2Proof.Machine

open Sys2Proof Sys2Proof.Machine

/-- Settles O18: of the four ways a running cycle can end, three are FAULTED, and the fourth ends with the present step. -/
theorem everySuccessfulCyclePresentsTheFrame : Obligations.EverySuccessfulCyclePresentsTheFrame := by
  intro s t rest h ht hr
  rcases takesCycle_cases h ht with ⟨u, hu, rfl⟩ | ⟨-, rfl⟩ | ⟨-, -, rfl⟩ | ⟨nnn, -, -, rfl⟩
  · exact ⟨congrArg (· + 1) hu.fbUpdates, rfl, hu.runState.trans h.2.1⟩
  all_goals exact absurd rfl hr

/-- Settles O19: of the cases of a step only `ran` presents, and it takes a cycle. -/
theorem nothingElsePresentsAFrame : Obligations.NothingElsePresentsAFrame := by
  intro s t hn ht
  cases stepCase_of_step ht with
  | ran h _ => exact absurd h (hn _)
  | reset _ | load _ _ | start _ _ | sink _ | ignored _ | closed _ _ _ | raised _ _ => exact ⟨rfl, rfl⟩

/-- Settles O21: `exec_cases` for execute; a step is a cycle or one of the other port events. -/
theorem execAndStepAlwaysAnswerNext : Obligations.ExecAndStepAlwaysAnswerNext := ⟨exec_answersNext, step_answersNext⟩

/-- Settles O28: each step only presents, and what it leaves is again at the jump to itself. -/
theorem selfJumpKeepsRunningAndPresenting : Obligations.SelfJumpKeepsRunningAndPresenting := by
  intro k s hc hp hw
  have h : s.AtSelfJump := ⟨hc, hp, hw⟩
  exact ⟨runsSafely_of_atSelfJump k h, _, run_of_atSelfJump k h, present_iterate k s⟩

/-- Settles O12: `State.fetch_eq`, at the two boundary values of R91 as well. -/
theorem fetchReadsTwoBytesBigEndian : Obligations.FetchReadsTwoBytesBigEndian := by
  intro s
  rw [State.fetch_eq, State.wordAtPC]
  refine ⟨rfl, rfl, fun hpc => ?_, fun hpc => ?_⟩
  all_goals
    rw [hpc]
    exact ⟨rfl, rfl⟩

/-- Settles O13: `step_of_takesCycle` with the present step written out. -/
theorem stepRunsTheDecodedInstruction : Obligations.StepRunsTheDecodedInstruction := by
  intro s rest i h hi
  obtain ⟨t, ht⟩ := exec_answersNext i (s.atExecute rest)
  simp only [step_of_takesCycle h, hi, executeAndPresent, ht]
  rfl

/-- Settles O22: a granted cycle is `cycle_closed`, and RUNNING is not FAULTED. -/
theorem closedSinkStopsTheRun : Obligations.ClosedSinkStopsTheRun := fun _ _ h hr ho =>
  ⟨(step_of_grantsCycle h).trans (cycle_closed hr ho), fun hinv => hinv.errKind_none (by simp [hr])⟩

/-- Settles O23: `start` by run state, and `cycle_not_running` for a granted cycle. -/
theorem startAndCycleRequestByRunState : Obligations.StartAndCycleRequestByRunState :=
  ⟨fun _ => rfl,
    fun _ _ h => ⟨fun hr => ⟨step_start_idle h hr, fun hinv => hinv.pc_of_idle hr⟩, step_start_not_idle h⟩,
    fun _ _ h hr => (step_of_grantsCycle h).trans (cycle_not_running hr)⟩

/-- Settles O24: the byte written reads back by `State.readByte_writeByte`, which needs the canonical form. -/
theorem loaderPortWritesInIdleOnly : Obligations.LoaderPortWritesInIdleOnly := by
  refine fun s rest a b h hwf => ⟨fun hr => ⟨_, step_load_idle h hr, ?_, fun a' ha => ?_, rfl⟩, step_load_not_idle h⟩
  · exact (State.readByte_writeByte (s := { s with pending := rest }) hwf a a b).trans (if_pos rfl)
  · exact (State.readByte_writeByte (s := { s with pending := rest }) hwf a a' b).trans (if_neg ha)

/-- Settles O25: the two port events that reach no other part of the block. -/
theorem sinkLevelAndIdleChangeNothingElse : Obligations.SinkLevelAndIdleChangeNothingElse := fun _ _ =>
  ⟨fun _ h => step_of_event h, step_of_event⟩
end

section
/-! PROOFS. Control transfer (spec/41_control_flow.md R105 to R114): Return and Call on either side of their stack conditions,
the cycles they make, Jump and the four skips. -/

namespace Sys2Proof.Machine

/-! ## Return and Call, with their stack condition decided -/

/-- Return with a top entry pops it into PC (R105). -/
theorem exec_ret_of_cons {s : State} {top : Addr} {rest : List Addr} (h : s.stack = top :: rest) :
    exec .ret s = .next ((s.withStack rest).writePC top) := by
  rw [exec, execReturn, h]

/-- Return on an empty stack raises StackUnderflow (R106). -/
theorem exec_ret_of_nil {s : State} (h : s.stack = []) :
    exec .ret s = .next (s.raise .stackUnderflow (s.pc - 2) 0x00EE) := by
  rw [exec, execReturn, h, ← State.fetchAddress_eq]
  rfl

/-- Call with room on the stack pushes PC and jumps (R108). -/
theorem exec_call_of_not_full (nnn : Addr) {s : State} (h : ¬ s.stackFull = true) :
    exec (.call nnn) s = .next ((s.push s.pc).writePC nnn) := if_neg h

/-- Call on a full stack raises StackOverflow (R108). -/
theorem exec_call_of_full (nnn : Addr) {s : State} (h : s.stackFull = true) :
    exec (.call nnn) s = .next (s.raise .stackOverflow (s.pc - 2) (0x2#4 ++ nnn)) := by
  rw [exec, execCall, if_pos h, State.fetchAddress_eq, encode]

/-- A Call that raises nothing has pushed PC. -/
theorem stack_of_exec_call {nnn : Addr} {s t : State} (ht : exec (.call nnn) s = .next t) (hr : t.runState ≠ .faulted) :
    t.stack = s.pc :: s.stack := by
  by_cases hf : s.stackFull = true
  · cases (exec_call_of_full nnn hf).symm.trans ht
    exact absurd rfl hr
  · cases (exec_call_of_not_full nnn hf).symm.trans ht
    rfl

/-! ## The cycles they make -/

/-- A cycle is execute of the instruction it decodes, then the present step (R94, R95). -/
theorem step_of_exec {s t : State} {rest : List PortEvent} {i : Instr} (h : s.takesCycle rest)
    (hi : decodeWord s.wordAtPC = .ok i) (ht : exec i (s.atExecute rest) = .next t) :
    step s = .next (presentUnlessFaulted t) := by
  simp only [step_of_takesCycle h, hi, executeAndPresent, ht]

/-- A cycle at the word of `i` decodes `i` (R76). -/
theorem decodeWord_of_wordAtPC {s : State} {i : Instr} (h : s.wordAtPC = encode i) : decodeWord s.wordAtPC = .ok i := by
  rw [h, decodeWord_encode]

@[simp] theorem presentUnlessFaulted_stack (s : State) : (presentUnlessFaulted s).stack = s.stack := by
  rw [presentUnlessFaulted]; split <;> rfl

/-- A cycle that raised a fatal condition presents nothing (R96). -/
@[simp] theorem presentUnlessFaulted_raise (s : State) (e : ErrKind) (a : Addr) (w : Word) :
    presentUnlessFaulted (s.raise e a w) = s.raise e a w := if_pos rfl

/-- The cycle of a Call that raises nothing leaves the address after the Call on top of S (R108). -/
theorem stack_of_call_cycle {s t : State} {rest : List PortEvent} {nnn : Addr} (h : s.takesCycle rest)
    (hw : s.wordAtPC = 0x2#4 ++ nnn) (ht : step s = .next t) (hr : t.runState ≠ .faulted) :
    t.stack = (s.pc + 2) :: s.stack := by
  obtain ⟨u, hu, rfl⟩ := exec_of_takesCycle h (decodeWord_of_wordAtPC (i := .call nnn) hw) ht
  rw [presentUnlessFaulted_runState] at hr
  rw [presentUnlessFaulted_stack]
  exact stack_of_exec_call hu hr

/-- The cycle of a Return on a stack with a top entry (R105). -/
theorem step_ret_of_cons {s : State} {rest : List PortEvent} {top : Addr} {tail : List Addr} (h : s.takesCycle rest)
    (hw : s.wordAtPC = 0x00EE) (hst : s.stack = top :: tail) :
    step s = .next (presentUnlessFaulted (((s.atExecute rest).withStack tail).writePC top)) :=
  step_of_exec h (decodeWord_of_wordAtPC (i := .ret) hw) (exec_ret_of_cons hst)

/-! ## The skips -/

/-- What an instruction made of `State.skipIf` does, when the condition it computes is `p` (R110). -/
theorem skip_spec {i : Instr} {s : State} {c : Bool} {p : Prop} [Decidable p] (h : exec i s = .next (s.skipIf c))
    (hc : c = true ↔ p) :
    ∃ t, exec i s = .next t ∧ t.pc = (if p then s.pc + 2 else s.pc) ∧ s.changesOnly { pc := true } t :=
  ⟨_, h, by simp only [pc_skipIf, hc], s.changesOnly_skipIf c rfl⟩

end Sys2Proof.Machine

open Sys2Proof Sys2Proof.Machine

/-- Settles O38: the Call's cycle leaves A + 2 on top of S, and the Return's cycle pops it. -/
theorem callThenReturnRoundTrip : Obligations.CallThenReturnRoundTrip := by
  intro s t u restS restU nnn hs hws ht hr hu hwu hst
  have hcall : t.stack = (s.pc + 2) :: s.stack := stack_of_call_cycle hs hws ht hr
  exact ⟨hcall, _, step_ret_of_cons hu hwu (hst.trans hcall), by simp, by simp⟩

/-- Settles O33: Return by whether S has a top entry. -/
theorem returnPopsIntoPCOrUnderflows : Obligations.ReturnPopsIntoPCOrUnderflows :=
  ⟨fun s top rest h => ⟨_, exec_ret_of_cons h, rfl, rfl,
    (s.changesOnly_withStack rest rfl).trans (State.changesOnly_writePC _ top rfl)⟩, fun _ => exec_ret_of_nil⟩

/-- Settles O34: execute sees PC = A + 2, so that the address it records is A. -/
theorem returnOnEmptyStackRaisesUnderflow : Obligations.ReturnOnEmptyStackRaisesUnderflow := by
  intro s rest h hw hst
  have hexec := exec_ret_of_nil (s := s.atExecute rest) hst
  rw [← State.fetchAddress_eq, State.fetchAddress_atExecute] at hexec
  rw [step_of_exec h (decodeWord_of_wordAtPC (i := .ret) hw) hexec, presentUnlessFaulted_raise]
  rfl

/-- Settles O35: Jump is one write of PC. -/
theorem jumpSetsPC : Obligations.JumpSetsPC := fun nnn s => ⟨_, rfl, rfl, s.changesOnly_writePC nnn rfl⟩

/-- Settles O36: Call by whether S is full, which `State.stackFull_iff` puts in the statement's terms. -/
theorem callPushesAndJumpsOrOverflows : Obligations.CallPushesAndJumpsOrOverflows := by
  refine fun nnn s => ⟨fun h => ?_, fun h => exec_call_of_full nnn (s.stackFull_iff.2 h)⟩
  have hf : ¬ s.stackFull = true := fun hf => by
    obtain ⟨depth, hd, hlen⟩ := s.stackFull_iff.1 hf
    exact h depth hd hlen
  exact ⟨_, exec_call_of_not_full nnn hf, rfl, rfl,
    (s.changesOnly_push s.pc rfl).trans (State.changesOnly_writePC _ nnn rfl)⟩

/-- Settles O39: each skip is `State.skipIf` of its condition. -/
theorem skipsPassTwoBytesWhenTheConditionHolds : Obligations.SkipsPassTwoBytesWhenTheConditionHolds :=
  ⟨fun _ _ _ => skip_spec rfl beq_iff_eq, fun _ _ _ => skip_spec rfl bne_iff_ne,
    fun _ _ _ => skip_spec rfl beq_iff_eq, fun _ _ _ => skip_spec rfl bne_iff_ne⟩
end

section
/-! PROOFS. The register and arithmetic instructions (spec/42_register_alu.md R120 to R133): what an instruction that ends in one
register write leaves, with and without a flag, and the arithmetic of the results and flags. -/

namespace Sys2Proof.Machine

/-! ## The results and the flags as numbers -/

@[simp] theorem trunc8_toNat (n : Nat) : (trunc8 n).toNat = n % 256 := BitVec.toNat_ofNat ..

@[simp] theorem flagByte_toNat (f : Bool) : (flagByte f).toNat = f.toNat := by cases f <;> rfl

theorem flagByte_carryOut (a b : Byte) :
    flagByte (carryOut a b) = if a.toNat + b.toNat > 0xFF then 0x01 else 0x00 := by
  simp only [flagByte, carryOut, decide_eq_true_eq]

theorem flagByte_noBorrow (a b : Byte) :
    flagByte (noBorrow a b) = if a.toNat ≥ b.toNat then 0x01 else 0x00 := by
  simp only [flagByte, noBorrow, decide_eq_true_eq]

theorem shiftedOutRight_toNat (b : Byte) : (shiftedOutRight b).toNat = b.toNat % 2 := by
  rw [shiftedOutRight, BitVec.getLsbD, Nat.toNat_testBit, Nat.pow_zero, Nat.div_one]

theorem shiftedOutLeft_toNat (b : Byte) : (shiftedOutLeft b).toNat = b.toNat / 128 := by
  have hlt : b.toNat < 256 := b.isLt
  rw [shiftedOutLeft, BitVec.getLsbD, Nat.toNat_testBit]
  omega

theorem shiftRight_one_toNat (b : Byte) : (b >>> 1).toNat = b.toNat / 2 := by
  rw [BitVec.toNat_ushiftRight, Nat.shiftRight_eq_div_pow, Nat.pow_one]

theorem shiftLeft_one_toNat (b : Byte) : (b <<< 1).toNat = b.toNat * 2 % 256 := by
  rw [BitVec.toNat_shiftLeft, Nat.shiftLeft_eq, Nat.pow_one]

/-- The source of a shift is the register COMPAT_MODE selects (R131, R132). -/
theorem State.shiftSource_of_compatMode {s : State} {x y : Reg} {src : Byte}
    (hy : s.cfg.compatMode = .vySource → src = s.readV y) (hx : s.cfg.compatMode = .vxInPlace → src = s.readV x) :
    s.shiftSource x y = src := by
  rw [State.shiftSource]
  split
  case h_1 h => exact (hy h).symm
  case h_2 h => exact (hx h).symm

/-! ## Instructions that end in one register write -/

/-- What an instruction made of `State.writeV` does: no flag (R122 to R127). -/
theorem writeV_spec {i : Instr} {s : State} {x : Reg} {b : Byte} (h : exec i s = .next (s.writeV x b)) :
    ∃ t, exec i s = .next t ∧ t.readV x = b ∧ s.changesOnly { regs := [x] } t :=
  ⟨_, h, by rw [State.readV_writeV, if_pos rfl], s.changesOnly_writeV b (by simp)⟩

/-- What an instruction made of `State.writeWithFlag` does: with x = 0xF only the flag is left (R121). -/
theorem writeWithFlag_spec {i : Instr} {s : State} {x : Reg} {b flag : Byte} {f : Bool} {n : Nat}
    (h : exec i s = .next (s.writeWithFlag x b f)) (hb : b.toNat = n) (hf : flagByte f = flag) :
    ∃ t, exec i s = .next t ∧ (x ≠ 0xF → (t.readV x).toNat = n) ∧ t.readV 0xF = flag ∧
      s.changesOnly { regs := [x, 0xF] } t :=
  ⟨_, h, fun hx => by rw [State.readV_writeWithFlag, if_neg hx, if_pos rfl, hb],
    by rw [State.readV_writeWithFlag, if_pos rfl, hf], s.changesOnly_writeWithFlag b f (by simp) (by simp)⟩

/-- The flag of a shift as the number of the bit shifted out (R131, R132). -/
theorem shift_spec {i : Instr} {s : State} {x : Reg} {b : Byte} {f : Bool} {n m : Nat}
    (h : exec i s = .next (s.writeWithFlag x b f)) (hb : b.toNat = n) (hf : f.toNat = m) :
    ∃ t, exec i s = .next t ∧ (x ≠ 0xF → (t.readV x).toNat = n) ∧ (t.readV 0xF).toNat = m ∧
      s.changesOnly { regs := [x, 0xF] } t := by
  obtain ⟨t, ht, hres, hflag, hframe⟩ := writeWithFlag_spec h hb rfl
  exact ⟨t, ht, hres, by rw [hflag, flagByte_toNat, hf], hframe⟩

/-! ## Result and flag together (R133) -/

/-- The carry stands for the 256 that the sum modulo 256 lost. -/
theorem exact_sum {a b r f : Byte} (hr : r.toNat = (a.toNat + b.toNat) % 256)
    (hf : f = if a.toNat + b.toNat > 0xFF then 0x01 else 0x00) : a.toNat + b.toNat = r.toNat + 256 * f.toNat := by
  have ha : a.toNat < 256 := a.isLt
  have hb : b.toNat < 256 := b.isLt
  have hflag : f.toNat = if a.toNat + b.toNat > 0xFF then 1 else 0 := by rw [hf]; split <;> rfl
  split at hflag <;> omega

/-- A borrow, the flag at 0, stands for the 256 that the difference modulo 256 added. -/
theorem exact_difference {a b r f : Byte} (hr : r.toNat = (a.toNat + 256 - b.toNat) % 256)
    (hf : f = if a.toNat ≥ b.toNat then 0x01 else 0x00) :
    (a.toNat : Int) - b.toNat = r.toNat - 256 * (1 - (f.toNat : Int)) := by
  have ha : a.toNat < 256 := a.isLt
  have hb : b.toNat < 256 := b.isLt
  have hflag : f.toNat = if a.toNat ≥ b.toNat then 1 else 0 := by rw [hf]; split <;> rfl
  split at hflag <;> omega

end Sys2Proof.Machine

open Sys2Proof Sys2Proof.Machine

/-- Settles O40: each immediate form is one write of V[x]. -/
theorem immediateFormsWriteVX : Obligations.ImmediateFormsWriteVX := by
  refine ⟨fun _ _ _ => writeV_spec rfl, fun x nn s => ?_⟩
  obtain ⟨t, ht, hv, hframe⟩ := writeV_spec (i := .addVX x nn) (s := s) rfl
  exact ⟨t, ht, by rw [hv, trunc8_toNat], hframe⟩

/-- Settles O41: each form is one write of V[x]. -/
theorem moveAndBitwiseFormsWriteVX : Obligations.MoveAndBitwiseFormsWriteVX := fun _ _ _ =>
  ⟨writeV_spec rfl, writeV_spec rfl, writeV_spec rfl, writeV_spec rfl⟩

/-- Settles O42: the sum is written with its carry. -/
theorem addVYToVXWritesSumAndCarry : Obligations.AddVYToVXWritesSumAndCarry := fun _ _ _ =>
  writeWithFlag_spec rfl (trunc8_toNat _) (flagByte_carryOut ..)

/-- Settles O43: each difference is written with its no-borrow flag. -/
theorem subtractionsWriteDifferenceAndNoBorrow : Obligations.SubtractionsWriteDifferenceAndNoBorrow := fun _ _ _ =>
  ⟨writeWithFlag_spec rfl (trunc8_toNat _) (flagByte_noBorrow ..),
    writeWithFlag_spec rfl (trunc8_toNat _) (flagByte_noBorrow ..)⟩

/-- Settles O44: the source COMPAT_MODE selects is shifted, and written with the bit shifted out. -/
theorem shiftsFollowTheCompatibilityMode : Obligations.ShiftsFollowTheCompatibilityMode := by
  intro x y s src hy hx
  obtain rfl : s.shiftSource x y = src := State.shiftSource_of_compatMode hy hx
  exact ⟨shift_spec rfl (shiftRight_one_toNat _) (shiftedOutRight_toNat _),
    shift_spec rfl (shiftLeft_one_toNat _) (shiftedOutLeft_toNat _)⟩

/-- Settles O45: the exact arithmetic of the results and flags that O42 and O43 give. -/
theorem resultAndFlagAreTheExactArithmetic : Obligations.ResultAndFlagAreTheExactArithmetic := by
  intro x y s t hx
  obtain ⟨u, hu, hsum, hcarry, -⟩ := addVYToVXWritesSumAndCarry x y s
  obtain ⟨⟨v, hv, hdiff, hflag, -⟩, ⟨w, hw, hdiff', hflag', -⟩⟩ := subtractionsWriteDifferenceAndNoBorrow x y s
  refine ⟨fun ht => ?_, fun ht => ?_, fun ht => ?_⟩
  · cases hu.symm.trans ht
    exact exact_sum (hsum hx) hcarry
  · cases hv.symm.trans ht
    exact exact_difference (hdiff hx) hflag
  · cases hw.symm.trans ht
    exact exact_difference (hdiff' hx) hflag'
end

section
/-! PROOFS. The index register and the framebuffer (spec/43_index_and_framebuffer.md R140 to R154): what one Draw leaves in FB and
VF when its sprite rows start at given columns, and the two ways a Draw gets those columns. -/

namespace Sys2Proof.Machine

/-! ## The start coordinates and the immediate of I -/

/-- `zext_16(nnn)` is four zero bits above nnn (R140). -/
theorem immediateI_eq (nnn : Addr) : immediateI nnn = 0x0#4 ++ nnn :=
  BitVec.setWidth_eq_append (by decide)

theorem State.columnOf_eq_and (s : State) (x : Reg) : s.columnOf x = (s.readV x).toNat &&& (s.cfg.displayW - 1) :=
  (Nat.and_two_pow_sub_one_eq_mod _ s.cfg.displayWLog).symm

theorem State.rowOf_eq_and (s : State) (y : Reg) : s.rowOf y = (s.readV y).toNat &&& (s.cfg.displayH - 1) :=
  (Nat.and_two_pow_sub_one_eq_mod _ s.cfg.displayHLog).symm

/-! ## The sprite's bits and its collisions, in the statements' terms -/

/-- The rows of a Draw are the sprite of `State.spriteBitAt`. -/
theorem State.rowsBit_zero (s : State) (r0 n : Nat) (cols : Nat → Nat) (row c : Nat) :
    s.rowsBit r0 0 n cols row c = s.spriteBitAt n r0 cols row c := by
  have hlast : (decide (r0 ≤ row) && decide (row < r0 + n)) = (decide (r0 ≤ row) && decide (row - r0 < n)) := by
    rw [← Bool.decide_and, ← Bool.decide_and, decide_eq_decide]
    omega
  simp only [rowsBit, rowBit, spriteByte, addr12, spriteBitAt, Nat.add_zero, hlast, Bool.and_assoc]

theorem rowsCollide_iff (s : State) (r0 n : Nat) (cols : Nat → Nat) :
    RowsCollide s r0 0 n cols ↔ ∃ row, row < s.cfg.displayH ∧ s.rowCollides n r0 cols row := by
  simp only [RowsCollide, State.rowsBit_zero, State.rowCollides, exists_and_left]

/-- The first `k` of a sprite's `n` rows have its bits in those rows and none elsewhere. -/
theorem State.spriteBitAt_min (s : State) (k n r0 : Nat) (cols : Nat → Nat) (row c : Nat) :
    s.spriteBitAt (min k n) r0 cols row c = (decide (row - r0 < k) && s.spriteBitAt n r0 cols row c) := by
  have hlast : decide (row - r0 < min k n) = (decide (row - r0 < k) && decide (row - r0 < n)) := by
    rw [← Bool.decide_and, decide_eq_decide, lt_min_iff]
  simp only [spriteBitAt, hlast, Bool.and_assoc, Bool.and_left_comm]

/-- A collision in the first `k` rows of a Draw, by sprite row instead of framebuffer row. -/
theorem rowsCollide_min_iff (s : State) (k n r0 : Nat) (cols : Nat → Nat) :
    RowsCollide s r0 0 (min k n) cols ↔
      ∃ q, q < k ∧ r0 + q < s.cfg.displayH ∧ s.rowCollides n r0 cols (r0 + q) := by
  rw [rowsCollide_iff]
  constructor
  · rintro ⟨row, hrow, c, hc, hp, hb⟩
    rw [State.spriteBitAt_min, Bool.and_eq_true, decide_eq_true_eq] at hb
    obtain ⟨hk, hb⟩ := hb
    have hr0 : r0 ≤ row := by
      simp only [State.spriteBitAt, Bool.and_eq_true, decide_eq_true_eq] at hb
      omega
    obtain ⟨q, rfl⟩ := Nat.exists_eq_add_of_le hr0
    exact ⟨q, by omega, hrow, c, hc, hp, hb⟩
  · rintro ⟨q, hq, hrow, c, hc, hp, hb⟩
    refine ⟨r0 + q, hrow, c, hc, hp, ?_⟩
    rw [State.spriteBitAt_min, hb]
    simp [hq]

/-! ## What a Draw leaves -/

/-- From `s` to `t` a sprite of `n` rows was drawn from row `r0`, its row `r` from column `cols r`: each cell is XORed with the
sprite's bit (R149), VF says whether a set pixel met a set bit (R148), and nothing else changes (R153). -/
structure Drew (s t : State) (n r0 : Nat) (cols : Nat → Nat) : Prop where
  pixel : ∀ row col, row < s.cfg.displayH → col < s.cfg.displayW →
    t.pixel row col = (s.pixel row col ^^ s.spriteBitAt n r0 cols row col)
  collision : (∃ row, row < s.cfg.displayH ∧ s.rowCollides n r0 cols row) → t.readV 0xF = 0x01
  noCollision : (¬ ∃ row, row < s.cfg.displayH ∧ s.rowCollides n r0 cols row) → t.readV 0xF = 0x00
  frame : DrawnFrom s t

/-- The state after the first `k` rows of a Draw: VF is cleared before them (R144). -/
def State.afterRows (s : State) (x y : Reg) (k : Nat) : State :=
  drawRows x (s.columnOf x) (s.rowOf y) k 0 (s.writeV regVF 0x00)

theorem exec_draw (x y : Reg) (n : BitVec 4) (s : State) : exec (.draw x y n) s = .next (s.afterRows x y n.toNat) := rfl

theorem drawnFrom_afterRows (s : State) (x y : Reg) (k : Nat) : DrawnFrom s (s.afterRows x y k) :=
  (drawnFrom_writeVF s 0x00).trans (drawnFrom_drawRows x _ _ k 0 _)

/-- The first `k` rows draw their sprite when the rows before each row `j` leave it to start at `cols j` (R145, R147). -/
theorem drew_afterRows {s : State} {x y : Reg} {k : Nat} {cols : Nat → Nat} (hs : s.fb.length = s.cfg.cells)
    (hcols : ∀ j, j < k → (s.afterRows x y j).rowStart x (s.columnOf x) = cols j) :
    Drew s (s.afterRows x y k) k (s.rowOf y) cols := by
  obtain ⟨hpix, hset, hclear⟩ := drawRows_spec x (s.columnOf x) (s.rowOf y) cols k 0 (s.writeV regVF 0x00) hs
    fun j hj _ => by rw [Nat.zero_add]; exact hcols j hj
  refine ⟨fun row col hrow hcol => ?_, fun h => ?_, fun h => ?_, drawnFrom_afterRows s x y k⟩
  · rw [← State.rowsBit_zero]
    exact hpix row col hrow hcol
  · exact hset ((rowsCollide_iff s _ _ _).2 h)
  · exact (hclear fun hc => h ((rowsCollide_iff s _ _ _).1 hc)).trans (State.readV_writeV s 0xF 0xF 0x00)

theorem Drew.changesOnly {s t : State} {n r0 : Nat} {cols : Nat → Nat} (h : Drew s t n r0 cols) :
    s.changesOnly { regs := [0xF], fb := true } t := State.changesOnly_of_drawnFrom h.frame (by simp) rfl

theorem Drew.length {s t : State} {n r0 : Nat} {cols : Nat → Nat} (h : Drew s t n r0 cols) : t.fb.length = s.fb.length :=
  h.frame.2.1

/-! ## The two ways the rows get their columns (R147) -/

/-- A Draw whose column does not depend on VF starts every row at the same column. -/
theorem exec_draw_fixed {x : Reg} (y : Reg) (n : BitVec 4) {s : State} (hs : s.fb.length = s.cfg.cells)
    (hx : s.cfg.drawColumnSource = .latched ∨ x ≠ 0xF) :
    ∃ t, exec (.draw x y n) s = .next t ∧ Drew s t n.toNat (s.rowOf y) fun _ => s.columnOf x :=
  ⟨_, exec_draw x y n s, drew_afterRows hs fun j _ => rowStart_of_fixed (drawnFrom_afterRows s x y j) hx⟩

/-- The column at which row `r` of a Draw of `n` rows starts under `REREAD` with x = 0xF: VF mod W as the drawn rows before it
left VF. -/
def State.rereadColumn (s : State) (y : Reg) (n r : Nat) : Nat := (s.afterRows 0xF y (min r n)).columnOf 0xF

/-- The first `min r n` rows start at the reread columns. -/
theorem drew_reread {s : State} (y : Reg) (n r : Nat) (hs : s.fb.length = s.cfg.cells)
    (hx : s.cfg.drawColumnSource = .reread) :
    Drew s (s.afterRows 0xF y (min r n)) (min r n) (s.rowOf y) (s.rereadColumn y n) := by
  refine drew_afterRows hs fun j hj => ?_
  have hstart : (s.afterRows 0xF y j).rowStart 0xF (s.columnOf 0xF) = (s.afterRows 0xF y j).columnOf 0xF := by
    rw [State.rowStart, (drawnFrom_afterRows s 0xF y j).cfg, hx]
  rw [hstart, State.rereadColumn, Nat.min_eq_left (by omega)]

/-- The reread column by the value of VF that the rows before left. -/
theorem rereadColumn_of_readV {s : State} {y : Reg} {n r : Nat} {b : Byte}
    (h : (s.afterRows 0xF y (min r n)).readV 0xF = b) : s.rereadColumn y n r = b.toNat % s.cfg.displayW := by
  rw [State.rereadColumn, State.columnOf, h, (drawnFrom_afterRows s 0xF y _).cfg]

/-! ## Drawing twice -/

/-- Two framebuffers of the display's shape are equal when their cells are. -/
theorem fb_eq_of_pixel {s t : State} (hs : s.fb.length = s.cfg.cells) (hd : DrawnFrom s t)
    (h : ∀ row col, row < s.cfg.displayH → col < s.cfg.displayW → t.pixel row col = s.pixel row col) : t.fb = s.fb := by
  refine List.ext_getElem hd.2.1 fun k hkt hks => ?_
  have hcells : k < s.cfg.displayW * s.cfg.displayH := hks.trans_eq hs
  have hW : 0 < s.cfg.displayW := Nat.two_pow_pos _
  have hcell := h (k / s.cfg.displayW) (k % s.cfg.displayW) (Nat.div_lt_of_lt_mul hcells) (Nat.mod_lt _ hW)
  simpa only [State.pixel, State.cellIndex, hd.cfg, Nat.div_add_mod', List.getD_eq_getElem, hkt, hks] using hcell

theorem DrawnFrom.spriteBitAt {s t : State} (h : DrawnFrom s t) (n r0 : Nat) (cols : Nat → Nat) (row col : Nat) :
    t.spriteBitAt n r0 cols row col = s.spriteBitAt n r0 cols row col := by
  simp only [State.spriteBitAt, h.i, h.readByte]

theorem DrawnFrom.columnOf {s t : State} (h : DrawnFrom s t) {x : Reg} (hx : x ≠ 0xF) : t.columnOf x = s.columnOf x := by
  rw [State.columnOf, State.columnOf, h.cfg, h.2.2 x hx]

theorem DrawnFrom.rowOf {s t : State} (h : DrawnFrom s t) {y : Reg} (hy : y ≠ 0xF) : t.rowOf y = s.rowOf y := by
  rw [State.rowOf, State.rowOf, h.cfg, h.2.2 y hy]

section
variable {s t u : State} {n r0 : Nat} {cols : Nat → Nat}

/-- The second XOR takes the first one back (R149). -/
theorem Drew.fb_twice (hs : s.fb.length = s.cfg.cells) (h : Drew s t n r0 cols) (h' : Drew t u n r0 cols) :
    u.fb = s.fb := by
  refine fb_eq_of_pixel hs (h.frame.trans h'.frame) fun row col hrow hcol => ?_
  rw [h'.pixel row col (h.frame.cfg ▸ hrow) (h.frame.cfg ▸ hcol), h.pixel row col hrow hcol, h.frame.spriteBitAt,
    Bool.xor_assoc, Bool.xor_self, Bool.xor_false]

/-- A blank framebuffer has no set pixel to meet. -/
theorem Drew.readVF_of_blank (h : Drew s t n r0 cols)
    (hblank : ∀ row col, row < s.cfg.displayH → col < s.cfg.displayW → s.pixel row col = false) : t.readV 0xF = 0x00 := by
  refine h.noCollision fun ⟨row, hrow, col, hcol, hset, _⟩ => ?_
  exact absurd (hset.symm.trans (hblank row col hrow hcol)) (by decide)

/-- A Draw that changed a blank framebuffer set a pixel where the sprite has a bit, which an equal Draw meets. -/
theorem Drew.collides_of_fb_ne (hs : s.fb.length = s.cfg.cells) (h : Drew s t n r0 cols)
    (hblank : ∀ row col, row < s.cfg.displayH → col < s.cfg.displayW → s.pixel row col = false) (hne : t.fb ≠ s.fb) :
    ∃ row, row < t.cfg.displayH ∧ t.rowCollides n r0 cols row := by
  by_contra hnone
  refine hne (fb_eq_of_pixel hs h.frame fun row col hrow hcol => ?_)
  have hbit : t.pixel row col = t.spriteBitAt n r0 cols row col := by
    rw [h.pixel row col hrow hcol, hblank row col hrow hcol, Bool.false_xor, h.frame.spriteBitAt]
  rw [hblank row col hrow hcol, ← Bool.not_eq_true]
  exact fun hset => hnone ⟨row, h.frame.cfg ▸ hrow, col, h.frame.cfg ▸ hcol, hset, hbit ▸ hset⟩
end

end Sys2Proof.Machine

open Sys2Proof Sys2Proof.Machine

/-- Settles O48: the Draws of `exec_draw_fixed`. -/
theorem drawComposesTheClippedSprite : Obligations.DrawComposesTheClippedSprite := by
  intro x y n s hs hx
  obtain ⟨t, ht, h⟩ := exec_draw_fixed y n hs hx
  exact ⟨t, ht, h.pixel, h.collision, h.noCollision, h.length, h.changesOnly⟩

/-- Settles O49: the columns are `State.rereadColumn`, and the rows before row `r` draw a sprite of their own, whose collision
VF shows. -/
theorem drawRereadStartsRowsAtTheCollisionFlag : Obligations.DrawRereadStartsRowsAtTheCollisionFlag := by
  intro y n s hs hx
  have hall : Drew s (s.afterRows 0xF y n.toNat) n.toNat (s.rowOf y) (s.rereadColumn y n.toNat) := by
    simpa only [Nat.min_self] using drew_reread y n.toNat n.toNat hs hx
  have hbefore (r : Nat) := (rowsCollide_iff s _ _ _).symm.trans
    (rowsCollide_min_iff s r n.toNat (s.rowOf y) (s.rereadColumn y n.toNat))
  refine ⟨_, s.rereadColumn y n.toNat, exec_draw 0xF y n s, fun r hr => ?_, fun r hr => ?_, hall.pixel, hall.collision,
    hall.noCollision, hall.length, hall.changesOnly⟩
  · exact rereadColumn_of_readV ((drew_reread y n.toNat r hs hx).collision ((hbefore r).2 hr))
  · rw [rereadColumn_of_readV ((drew_reread y n.toNat r hs hx).noCollision fun h => hr ((hbefore r).1 h))]
    exact Nat.zero_mod _

/-- Settles O50: every Draw leaves what `DrawnFrom` allows. -/
theorem drawWritesOnlyFramebufferAndVF : Obligations.DrawWritesOnlyFramebufferAndVF := by
  intro x y n s
  obtain ⟨t, ht, h⟩ := execDraw_drawnFrom x y n s
  exact ⟨t, ht, h.2.1, State.changesOnly_of_drawnFrom h (by simp) rfl⟩

/-- Settles O52: with x and y other than 0xF the second Draw has the start coordinates of the first. -/
theorem drawingTwiceRestoresTheFramebuffer : Obligations.DrawingTwiceRestoresTheFramebuffer := by
  intro x y n s t u hs hx hy ht hu
  obtain ⟨t', ht', h⟩ := exec_draw_fixed y n hs (.inr hx)
  cases ht'.symm.trans ht
  have hst : t.fb.length = t.cfg.cells := by rw [h.length, hs, h.frame.cfg]
  obtain ⟨u', hu', h'⟩ := exec_draw_fixed y n hst (.inr hx)
  cases hu'.symm.trans hu
  rw [h.frame.columnOf hx, h.frame.rowOf hy] at h'
  refine ⟨h.fb_twice hs h', fun hblank => ⟨h.readVF_of_blank hblank, fun heq => ?_, fun hne => ?_⟩⟩
  · refine h'.readVF_of_blank fun row col hrow hcol => ?_
    rw [h.frame.cfg] at hrow hcol
    simpa only [State.pixel, State.cellIndex, heq, h.frame.cfg] using hblank row col hrow hcol
  · exact h'.collision (h.collides_of_fb_ne hs hblank hne)

/-- Settles O46: SetIRegister is one write of I. -/
theorem setIRegisterZeroExtends : Obligations.SetIRegisterZeroExtends := fun nnn s =>
  ⟨_, rfl, immediateI_eq nnn, s.changesOnly_writeI _ rfl⟩

/-- Settles O47: ClearScreen is `State.clearFB`. -/
theorem clearScreenClearsEveryCell : Obligations.ClearScreenClearsEveryCell := fun s =>
  ⟨_, rfl, fun row col _ _ => s.pixel_clearFB row col, List.length_replicate, s.changesOnly_clearFB rfl⟩

/-- Settles O51: without rows, clearing VF is all a Draw does. -/
theorem drawOfZeroRowsClearsVFOnly : Obligations.DrawOfZeroRowsClearsVFOnly := fun _ _ _ => writeV_spec rfl

/-- Settles O53: `State.columnOf_eq_and` and `State.rowOf_eq_and`. -/
theorem startCoordinatesByModAreThoseByMask : Obligations.StartCoordinatesByModAreThoseByMask := fun s x =>
  ⟨s.columnOf_eq_and x, s.rowOf_eq_and x⟩
end

section
/-! PROOFS. Fatal conditions (spec/60_exceptions.md R165 to R174): a cycle that runs raises `e` exactly when it has the cause of
`e`, what it then leaves, and that FAULTED stays until a `rst`. -/

namespace Sys2Proof.Machine

/-! ## The cause of a fatal condition raises it -/

/-- A cycle at an illegal word raises DecodeError (R92, R169). -/
theorem step_of_decode_error {s : State} {rest : List PortEvent} {e : DecodeReject} (h : s.takesCycle rest)
    (he : decodeWord s.wordAtPC = .error e) :
    step s = .next ((s.atExecute rest).raise .decodeError s.pc s.wordAtPC) := by
  rw [step_of_takesCycle h, he]

/-- The cycle of a Call on a full stack raises StackOverflow; execute sees PC = A + 2, so that it records A (R108, R171). -/
theorem step_call_of_full {s : State} {rest : List PortEvent} {nnn : Addr} (h : s.takesCycle rest)
    (hw : s.wordAtPC = 0x2#4 ++ nnn) (hf : s.stackFull = true) :
    step s = .next ((s.atExecute rest).raise .stackOverflow s.pc (0x2#4 ++ nnn)) := by
  have hexec := exec_call_of_full nnn (s := s.atExecute rest) hf
  rw [← State.fetchAddress_eq, State.fetchAddress_atExecute] at hexec
  rw [step_of_exec h (decodeWord_of_wordAtPC (i := .call nnn) hw) hexec, presentUnlessFaulted_raise]

/-- An illegal word is refused by the decoder (R77). -/
theorem decodeWord_error_of_not_legalWord {w : Word} (h : legalWord w = false) : ∃ e, decodeWord w = .error e := by
  cases hdec : decodeWord w with
  | error e => exact ⟨e, rfl⟩
  | ok i =>
    have hlegal : legalWord w = true := encode_of_decodeWord hdec ▸ legalWord_encode i
    cases h.symm.trans hlegal

/-- A cycle that has the cause of `e` raises `e` with its own address and word, before any other write (R165, R168). -/
theorem step_of_hasCause {s : State} {rest : List PortEvent} {e : ErrKind} (h : s.takesCycle rest) (he : s.hasCause e) :
    step s = .next ((s.atExecute rest).raise e s.pc s.wordAtPC) := by
  cases e with
  | none | addressRangeError => exact he.elim
  | decodeError =>
    obtain ⟨r, hr⟩ := decodeWord_error_of_not_legalWord he
    exact step_of_decode_error h hr
  | stackUnderflow =>
    obtain ⟨hw, hst⟩ := he
    rw [hw]
    exact returnOnEmptyStackRaisesUnderflow s rest h hw hst
  | stackOverflow =>
    obtain ⟨hfamily, hfull⟩ := he
    obtain ⟨nnn, hw⟩ : ∃ nnn, s.wordAtPC = 0x2#4 ++ nnn :=
      ⟨_, (nnn_of_fields _).symm.trans (congrArg (· ++ fieldNNN s.wordAtPC) hfamily)⟩
    rw [hw]
    exact step_call_of_full h hw (s.stackFull_iff.2 hfull)

/-! ## Nothing else does -/

/-- A cycle that ends FAULTED has the cause of a fatal condition, and has done no more than raise it (R168). -/
theorem hasCause_of_faulted {s t : State} {rest : List PortEvent} (h : s.takesCycle rest) (ht : step s = .next t)
    (hf : t.runState = .faulted) : ∃ e, s.hasCause e ∧ t = (s.atExecute rest).raise e s.pc s.wordAtPC := by
  have running {u : State} (hu : u.runState = s.runState) : u.runState ≠ .faulted := by simp [hu, h.2.1]
  cases stepCase_of_takesCycle h ht with
  | raised h' he =>
    rw [← h.1.pending_tail, h'.1.pending_tail]
    exact ⟨_, he, rfl⟩
  | ran _ hu => exact absurd hf (running hu.runState)
  | load _ _ | sink _ | ignored _ => exact absurd hf (running rfl)
  | reset _ | start _ _ | closed _ _ _ => cases hf

/-- A cycle raises `e` exactly when it has the cause of `e` (R165, R166). -/
theorem raises_iff_hasCause {s t : State} {rest : List PortEvent} (h : s.takesCycle rest) (ht : step s = .next t)
    (e : ErrKind) : t.runState = .faulted ∧ t.errKind = e ↔ s.hasCause e := by
  constructor
  · rintro ⟨hf, rfl⟩
    obtain ⟨e, he, rfl⟩ := hasCause_of_faulted h ht hf
    exact he
  · intro he
    cases (step_of_hasCause h he).symm.trans ht
    exact ⟨rfl, rfl⟩

/-- The three fatal conditions that have a cause (R165, R166). -/
theorem State.hasCause.eq_one_of_three {s : State} {e : ErrKind} (h : s.hasCause e) :
    e = .decodeError ∨ e = .stackUnderflow ∨ e = .stackOverflow := by
  cases e with
  | none | addressRangeError => exact h.elim
  | decodeError | stackUnderflow | stackOverflow => simp

end Sys2Proof.Machine

open Sys2Proof Sys2Proof.Machine

/-- Settles O15: `hasCause_of_faulted`, whose state after the cycle is `State.raise` of the state execute starts from. -/
theorem fatalCyclesArePrecise : Obligations.FatalCyclesArePrecise := by
  intro s t rest h ht hf
  obtain ⟨e, he, rfl⟩ := hasCause_of_faulted h ht hf
  exact ⟨he.eq_one_of_three, rfl⟩

/-- Settles O16: `raises_iff_hasCause` for each of the three kinds, and no other kind has a cause. -/
theorem cyclesFaultInExactlyThreeCases : Obligations.CyclesFaultInExactlyThreeCases := by
  intro s t rest h ht
  have raises := raises_iff_hasCause h ht
  exact ⟨raises .decodeError, raises .stackUnderflow, raises .stackOverflow,
    fun hf => ((raises t.errKind).1 ⟨hf, rfl⟩).eq_one_of_three⟩

/-- Settles O29: FAULTED is the other of the two run states that `run_of_ended` is about. -/
theorem faultedIsStickyWithoutReset : Obligations.FaultedIsStickyWithoutReset := by
  intro k s hs hrst
  obtain ⟨b, hb⟩ := run_of_ended k (by simp [hs]) (by simp [hs]) hrst
  exact ⟨_, hb, rfl⟩

/-- Settles O14: `step_of_decode_error`, with `State.raise` written out. -/
theorem illegalWordRaisesDecodeError : Obligations.IllegalWordRaisesDecodeError := fun _ _ _ => step_of_decode_error

/-- Settles O37: `step_call_of_full`, where `State.stackFull_iff` reads the full stack off its length. -/
theorem callOnFullStackRaisesOverflow : Obligations.CallOnFullStackRaisesOverflow := fun s _ _ depth h hw hd hlen =>
  step_call_of_full h hw (s.stackFull_iff.2 ⟨depth, hd, hlen⟩)
end

section
/-! PROOFS. Reset and the boot order (spec/70_reset_and_hazards.md R185 to R189): what the loader's writes of an image leave, and
the state the boot order starts the machine in. -/

namespace Sys2Proof.Machine

/-- `run_succ` for this machine, whose step is `step`. -/
theorem run_of_step {k : Nat} {s t : State} (h : step s = .next t) :
    Host.Core.run Sys2Proof.core (k + 1) s = Host.Core.run Sys2Proof.core k t := run_succ (M := Sys2Proof.core) h

/-! ## The loader's writes -/

/-- The address after `base` as the loader counts it (R30, R50). -/
theorem addr12_toNat_add_one (base : Nat) : addr12 ((addr12 base).toNat + 1) = addr12 (base + 1) :=
  (addr12_toNat_add _ 1).trans (BitVec.ofNat_add ..).symm

/-- An address below 4096 is not wrapped (R30). -/
theorem eq_addr12_iff {base : Nat} (h : base < 4096) (p : Addr) : p = addr12 base ↔ p.toNat = base := by
  rw [addr12, ← BitVec.toNat_inj, BitVec.toNat_ofNat, Nat.mod_eq_of_lt h]

/-- In IDLE the loader's writes put byte `k` of an image at `base + k`, and change no other byte and nothing else of the
state (R50, R101). -/
theorem run_loadEvents (image : List Byte) (rest : List PortEvent) {s : State} {base : Nat}
    (hfit : base + image.length ≤ 4096) (hr : s.runState = .idle) (hwf : Memory.wf s.mem = true) :
    ∃ m, Host.Core.run Sys2Proof.core image.length { s with pending := loadEvents (addr12 base) image ++ rest } =
        .next { s with mem := m, pending := rest } ∧
      ∀ p : Addr, Memory.lookup m p.toNat =
        if base ≤ p.toNat then image.getD (p.toNat - base) (s.readByte p) else s.readByte p := by
  induction image generalizing s base with
  | nil => exact ⟨s.mem, rfl, fun p => (ite_self (s.readByte p)).symm⟩
  | cons b image ih =>
    rw [List.length_cons] at hfit
    have hstep : step { s with pending := loadEvents (addr12 base) (b :: image) ++ rest } =
        .next ({ s with pending := loadEvents (addr12 (base + 1)) image ++ rest }.writeByte (addr12 base) b) := by
      rw [← addr12_toNat_add_one]
      exact step_load_idle (s := { s with pending := loadEvents (addr12 base) (b :: image) ++ rest }) rfl hr
    obtain ⟨m, hm, hbytes⟩ := ih (s := s.writeByte (addr12 base) b) (base := base + 1) (by omega) hr
      (State.wf_writeByte hwf (addr12 base) b)
    refine ⟨m, (run_of_step hstep).trans hm, fun p => ?_⟩
    simp only [hbytes, State.readByte_writeByte hwf, eq_addr12_iff (show base < 4096 by omega)]
    rcases Nat.lt_trichotomy p.toNat base with hlt | heq | hgt
    · rw [if_neg (by omega), if_neg (by omega), if_neg (by omega)]
    · simp [heq]
    · have hk : p.toNat - base = p.toNat - (base + 1) + 1 := by omega
      rw [if_pos (Nat.succ_le_iff.2 hgt), if_neg (by omega), if_pos hgt.le, hk, List.getD_cons_succ]

/-! ## The boot order -/

/-- The boot order of an image that fits leaves the image from 0x200 on in an otherwise zero memory, RUNNING, and everything
else as `rst` leaves it (R188). -/
theorem run_bootEvents {s : State} {image : List Byte} {rest : List PortEvent} (hfit : imageFits image = true)
    (hp : s.pending = bootEvents image ++ rest) :
    ∃ m, Host.Core.run Sys2Proof.core (image.length + 2) s =
        .next { s.rst with mem := m, runState := .running, pending := rest } ∧
      ∀ p : Addr, Memory.lookup m p.toNat = if 0x200 ≤ p.toNat then image.getD (p.toNat - 0x200) 0 else 0 := by
  have hlen : image.length ≤ 0xE00 := of_decide_eq_true hfit
  have hp' : s.pending = .rst :: (loadEvents programBase image ++ .start :: rest) := by simp [hp, bootEvents]
  obtain ⟨m, hload, hbytes⟩ := run_loadEvents image (.start :: rest) (s := s.rst) (base := 0x200) (by omega) rfl rfl
  refine ⟨m, ?_, hbytes⟩
  calc Host.Core.run Sys2Proof.core (image.length + 2) s
    _ = Host.Core.run Sys2Proof.core (image.length + 1) _ := run_of_step (step_of_event hp')
    _ = Host.Core.run Sys2Proof.core 1 { s.rst with mem := m, pending := .start :: rest } := run_add hload
    _ = _ := run_of_step (step_start_idle (s := { s.rst with mem := m, pending := .start :: rest }) rfl rfl)

/-- A cycle in a memory of zeros raises DecodeError, wherever PC stands: 0x0000 is no instruction (R69, R189). -/
theorem step_of_zero_memory {s : State} {rest : List PortEvent} (h : s.takesCycle rest) (hzero : ∀ p, s.readByte p = 0x00) :
    step s = .next ((s.atExecute rest).raise .decodeError s.pc 0x0000) := by
  have hword : s.wordAtPC = 0x0000 := by
    rw [State.wordAtPC, hzero, hzero]
    rfl
  rw [step_of_decode_error (e := .illegalFamily0) h (hword ▸ rfl), hword]

end Sys2Proof.Machine

open Sys2Proof Sys2Proof.Machine

/-- Settles O30: `run_bootEvents`, read inside the image and on either side of it. -/
theorem bootLoadsTheImage : Obligations.BootLoadsTheImage := by
  intro s image rest hfit hp
  have hlen : image.length ≤ 0xE00 := of_decide_eq_true hfit
  obtain ⟨m, hrun, hbytes⟩ := run_bootEvents hfit hp
  refine ⟨_, hrun, fun k hk => (hbytes _).trans ?_, fun a ha => (hbytes a).trans ?_, rfl, rfl, s.readV_rst, rfl, rfl, rfl, rfl,
    rfl, rfl, rfl, rfl⟩
  · have htoNat : (BitVec.ofNat 12 (0x200 + k)).toNat = 0x200 + k := (eq_addr12_iff (by omega) _).1 rfl
    rw [htoNat, if_pos (Nat.le_add_right ..), Nat.add_sub_cancel_left]
  · split
    · exact List.getD_eq_default _ _ (by omega)
    · rfl

/-- Settles O7: `State.rst`, read through the accessors. -/
theorem resetEventSetsEveryElement : Obligations.ResetEventSetsEveryElement := fun _ _ h =>
  ⟨_, step_of_event h, State.readV_rst _, rfl, rfl, State.readByte_rst _, rfl, List.length_replicate, State.pixel_rst _, rfl,
    rfl, rfl, rfl⟩

/-- Settles O31: `run_bootEvents` leaves a memory of zeros, where the first cycle is `step_of_zero_memory`. -/
theorem emptyImageRaisesDecodeError : Obligations.EmptyImageRaisesDecodeError := by
  intro s hp ho
  obtain ⟨m, hrun, hbytes⟩ := run_bootEvents (image := []) (rest := []) rfl (hp.trans (List.append_nil _).symm)
  have hzero (p : Addr) : Memory.lookup m p.toNat = 0x00 := (hbytes p).trans (ite_self 0)
  exact ⟨_, (run_add (b := 1) hrun).trans (run_of_step (step_of_zero_memory ⟨.inl ⟨rfl, rfl⟩, rfl, ho⟩ hzero)), rfl, rfl, rfl,
    rfl⟩
end

section
/-! PROOFS. The written-out decode vectors (spec/95_test_vectors.md section 2), as words of the encoder and words that break a
rule of spec/30_encoding.md. -/

open Sys2Proof

/-- Settles O2: each legal vector is the encoder's word of its instruction; of the three illegal ones, 0xFFFF has no family
(R75), 0x0000 is neither word of family 0x0 (R69), and 0x5121 has n ≠ 0 (R72). -/
theorem writtenOutWordsDecode : Obligations.WrittenOutWordsDecode :=
  ⟨decodeWord_encode .clearScreen, decodeWord_encode .ret, decodeWord_encode (.jump 0xABC),
    decodeWord_encode (.skipIfNotEqual 0xA 0x5B), decodeWord_encode (.skipIfEqualXY 1 2),
    decodeWord_encode (.subVXFromVY 1 2), decodeWord_encode (.shiftLeft 1 2), decodeWord_encode (.setIRegister 0xFFF),
    decodeWord_encode (.draw 1 2 0xF), ⟨_, decodeWord_illegalFamily 0xFFF (f := 0xF) (by decide)⟩,
    ⟨_, decodeWord_family0_error (nnn := 0x000) (by decide) (by decide)⟩,
    ⟨_, decodeWord_lowNibble_error (.inl rfl) 1 2 (n := 1) (by decide)⟩⟩
end
